-- ==== Sys2Proof/Word.lean ====
section
/-! DEFINITION. The widths of the block: bytes, 16-bit CRC and length fields, 32-bit ticks and registers
(00_scope.md R9, R12; every value is unsigned). -/

namespace Sys2Proof

/-- A byte, an 8-bit unsigned value (00_scope.md R12). -/
abbrev Byte := BitVec 8

/-- A 16-bit value: a CRC, or a length field of a host message (40_crc.md R65, 30_encoding.md R57). -/
abbrev Half := BitVec 16

/-- A 32-bit value: a tick, a timeout, a configuration register (00_scope.md R9, 10_state.md R23). -/
abbrev Word := BitVec 32

end Sys2Proof
end

