-- ==== Sys2Proof/Syntax.lean ====
section
/-! DEFINITION. The commands of the host command port (30_encoding.md R57) and the illegal opcode space (R61):
one constructor per mnemonic of spec/opcode_table.json. -/

namespace Sys2Proof

/-- One message of the host command port that its opcode accounts for. Length fields (N, PLEN) are the lengths of
the lists; FLAGS bits 7:1 are 0 in every well-formed message (30_encoding.md R58), so only USE_DEFAULT is kept. -/
inductive Instr where
  /-- 0x01 CRC16 (40_crc.md R69). -/
  | crc16 (data : List Byte)
  /-- 0x02 CONSTRUCT (41_framer.md R72). -/
  | construct (type : Byte) (payload : List Byte)
  /-- 0x03 PARSE (42_deframer.md R85). -/
  | parse
  /-- 0x04 ACC_APPEND (42_deframer.md R86). -/
  | accAppend (data : List Byte)
  /-- 0x05 SEND_FRAME (43_transmit.md R95). -/
  | sendFrame (type : Byte) (payload : List Byte)
  /-- 0x06 SEND_ACK (43_transmit.md R96). -/
  | sendAck
  /-- 0x07 SEND_START_WORD (43_transmit.md R97). -/
  | sendStartWord
  /-- 0x08 SEND_FRAME_WAIT_ACK (44_handshake.md R104). -/
  | sendFrameWaitAck (useDefault : Bool) (type : Byte) (timeout : Word) (payload : List Byte)
  /-- 0x09 CFG_READ (45_config.md R118). -/
  | cfgRead (reg : Byte)
  /-- 0x0A CFG_WRITE (45_config.md R119). -/
  | cfgWrite (reg : Byte) (value : Word)
  /-- 0x00, illegal whatever bytes follow (45_config.md R120). -/
  | illegalZero (rest : List Byte)
  /-- 0x0B to 0xFF, illegal whatever bytes follow (45_config.md R120). -/
  | illegalHigh (opcode : Byte) (rest : List Byte)
  deriving DecidableEq, Repr

end Sys2Proof
end

