-- ==== Sys2Proof/WellFormed.lean ====
section
/-! DEFINITION. Which instructions a command message can state (30_encoding.md R57, R61). -/

namespace Sys2Proof

/-- A data field's length is stated in a 16-bit field (30_encoding.md R57), so it is at most 65535. -/
def fitsLengthField (bs : List Byte) : Bool :=
  decide (bs.length ≤ 65535)

/-- An instruction some message encodes: every data field fits its 16-bit length field, and the opcode kept by
`illegalHigh` is one of 0x0B to 0xFF. A payload of 256 bytes or more is well formed: it is refused when run
(30_encoding.md R62). -/
def Instr.wellFormed : Instr → Bool
  | .crc16 data => fitsLengthField data
  | .construct _ payload => fitsLengthField payload
  | .parse => true
  | .accAppend data => fitsLengthField data
  | .sendFrame _ payload => fitsLengthField payload
  | .sendAck => true
  | .sendStartWord => true
  | .sendFrameWaitAck _ _ _ payload => fitsLengthField payload
  | .cfgRead _ => true
  | .cfgWrite _ _ => true
  | .illegalZero _ => true
  | .illegalHigh opcode _ => decide (0x0B ≤ opcode.toNat)

end Sys2Proof
end

