-- ==== Sys2Proof/Decode.lean ====
section
/-! DEFINITION. The byte order of multi-byte fields, the decoder of host command messages (30_encoding.md R56 to R62,
45_config.md R117) and the encoder written from the same table. -/

namespace Sys2Proof

/-! ## Byte order (00_scope.md R13, 20_memory.md R39, R40) -/

/-- `le16(v) = [v[7:0], v[15:8]]`. -/
def le16 (v : Half) : List Byte :=
  [v.extractLsb' 0 8, v.extractLsb' 8 8]

/-- `le32(v) = [v[7:0], v[15:8], v[23:16], v[31:24]]`. -/
def le32 (v : Word) : List Byte :=
  [v.extractLsb' 0 8, v.extractLsb' 8 8, v.extractLsb' 16 8, v.extractLsb' 24 8]

/-- `u16le(b0, b1) = b0 | (b1 << 8)`. -/
def u16le (b0 b1 : Byte) : Half :=
  b0.setWidth 16 ||| (b1.setWidth 16 <<< 8)

/-- `u32le(b0, b1, b2, b3) = b0 | (b1 << 8) | (b2 << 16) | (b3 << 24)`. -/
def u32le (b0 b1 b2 b3 : Byte) : Word :=
  b0.setWidth 32 ||| (b1.setWidth 32 <<< 8) ||| (b2.setWidth 32 <<< 16) ||| (b3.setWidth 32 <<< 24)

/-- The length of a byte list as the 16-bit field that states it. -/
def length16 (bs : List Byte) : List Byte :=
  le16 (BitVec.ofNat 16 bs.length)

/-! ## The decoder -/

/-- Why a message is no instruction: the empty message (30_encoding.md R61) and the three cases of R62. -/
inductive Malformed where
  /-- No opcode. -/
  | empty
  /-- Shorter than the fixed part of its format (R62 case 1). -/
  | shorterThanFixedPart
  /-- Not the exact length its own N or PLEN gives (R62 case 2). -/
  | wrongLength
  /-- FLAGS bits 7:1 not all 0 (R62 case 3). -/
  | reservedFlags
  deriving DecidableEq, Repr

/-- What the decoder answers. -/
inductive Decoded where
  | ok (i : Instr)
  | rejected (why : Malformed)
  deriving DecidableEq, Repr

/-- An instruction whose last field is `body`, stated to hold `n` bytes (30_encoding.md R62 case 2). -/
def exactBody (n : Half) (body : List Byte) (i : Instr) : Decoded :=
  if body.length = n.toNat then .ok i else .rejected .wrongLength

/-- The FLAGS byte's reserved bits 7:1 (30_encoding.md R58). -/
def reservedFlagBits (flags : Byte) : BitVec 7 :=
  flags.extractLsb' 1 7

/-- The FLAGS byte's bit 0, USE_DEFAULT (30_encoding.md R58). -/
def useDefaultBit (flags : Byte) : Bool :=
  flags.getLsbD 0

/-- `N[2] DATA[N]` (opcodes 0x01 and 0x04). -/
def decodeData (build : List Byte → Instr) : List Byte → Decoded
  | n0 :: n1 :: data => exactBody (u16le n0 n1) data (build data)
  | _ => .rejected .shorterThanFixedPart

/-- `TYPE PLEN[2] PAYLOAD[PLEN]` (opcodes 0x02 and 0x05). -/
def decodeFrame (build : Byte → List Byte → Instr) : List Byte → Decoded
  | type :: l0 :: l1 :: payload => exactBody (u16le l0 l1) payload (build type payload)
  | _ => .rejected .shorterThanFixedPart

/-- No field after the opcode (opcodes 0x03, 0x06 and 0x07). -/
def decodeBare (i : Instr) : List Byte → Decoded
  | [] => .ok i
  | _ :: _ => .rejected .wrongLength

/-- `FLAGS TYPE TIMEOUT[4] PLEN[2] PAYLOAD[PLEN]` (opcode 0x08). -/
def decodeWaitAck : List Byte → Decoded
  | flags :: type :: t0 :: t1 :: t2 :: t3 :: l0 :: l1 :: payload =>
    if reservedFlagBits flags = 0 then
      exactBody (u16le l0 l1) payload
        (.sendFrameWaitAck (useDefaultBit flags) type (u32le t0 t1 t2 t3) payload)
    else .rejected .reservedFlags
  | _ => .rejected .shorterThanFixedPart

/-- `REG` (opcode 0x09). -/
def decodeCfgRead : List Byte → Decoded
  | [] => .rejected .shorterThanFixedPart
  | [reg] => .ok (.cfgRead reg)
  | _ => .rejected .wrongLength

/-- `REG VALUE[4]` (opcode 0x0A). -/
def decodeCfgWrite : List Byte → Decoded
  | [reg, v0, v1, v2, v3] => .ok (.cfgWrite reg (u32le v0 v1 v2 v3))
  | _ :: _ :: _ :: _ :: _ :: _ :: _ => .rejected .wrongLength
  | _ => .rejected .shorterThanFixedPart

/-- The decoder (45_config.md R117): total on every byte sequence. Opcodes 0x00 and 0x0B to 0xFF are illegal
whatever follows (30_encoding.md R61). -/
def decode : List Byte → Decoded
  | [] => .rejected .empty
  | op :: fields =>
    match op.toNat with
    | 0x00 => .ok (.illegalZero fields)
    | 0x01 => decodeData .crc16 fields
    | 0x02 => decodeFrame .construct fields
    | 0x03 => decodeBare .parse fields
    | 0x04 => decodeData .accAppend fields
    | 0x05 => decodeFrame .sendFrame fields
    | 0x06 => decodeBare .sendAck fields
    | 0x07 => decodeBare .sendStartWord fields
    | 0x08 => decodeWaitAck fields
    | 0x09 => decodeCfgRead fields
    | 0x0A => decodeCfgWrite fields
    | _ => .ok (.illegalHigh op fields)

/-! ## The encoder (30_encoding.md R57, R63) -/

/-- FLAGS with only USE_DEFAULT set or clear (30_encoding.md R58). -/
def flagsByte (useDefault : Bool) : Byte :=
  if useDefault then 0x01 else 0x00

/-- The message that states an instruction. -/
def encode : Instr → List Byte
  | .crc16 data => 0x01 :: length16 data ++ data
  | .construct type payload => 0x02 :: type :: length16 payload ++ payload
  | .parse => [0x03]
  | .accAppend data => 0x04 :: length16 data ++ data
  | .sendFrame type payload => 0x05 :: type :: length16 payload ++ payload
  | .sendAck => [0x06]
  | .sendStartWord => [0x07]
  | .sendFrameWaitAck useDefault type timeout payload =>
    0x08 :: flagsByte useDefault :: type :: le32 timeout ++ length16 payload ++ payload
  | .cfgRead reg => [0x09, reg]
  | .cfgWrite reg value => 0x0A :: reg :: le32 value
  | .illegalZero rest => 0x00 :: rest
  | .illegalHigh opcode rest => opcode :: rest

/-- The pseudo-command `SEND_FRAME_WAIT_ACK <type>, [payload]` with the timeout operand omitted: it assembles as the
wait with the default timeout, whose TIMEOUT field is four zero bytes (30_encoding.md R63, R64). -/
def waitAckWithDefault (type : Byte) (payload : List Byte) : Instr :=
  .sendFrameWaitAck true type 0 payload

/-! ## Message lengths, and messages given as numbers -/

/-- The bytes of a message before its data field (30_encoding.md R62 case 1); an illegal opcode needs only itself. -/
def fixedPart (op : Byte) : Nat :=
  match op.toNat with
  | 0x01 => 3
  | 0x02 => 4
  | 0x04 => 3
  | 0x05 => 4
  | 0x08 => 9
  | 0x09 => 2
  | 0x0A => 6
  | _ => 1

/-- The byte of a message at an offset, 0 past its end. -/
def byteAt (m : List Byte) (k : Nat) : Byte :=
  m.getD k 0

/-- The exact length of a message with a legal opcode, from its own N or PLEN (30_encoding.md R57); an illegal
message has any length, its own among them. -/
def exactLength (m : List Byte) : Nat :=
  match (byteAt m 0).toNat with
  | 0x01 => 3 + (u16le (byteAt m 1) (byteAt m 2)).toNat
  | 0x02 => 4 + (u16le (byteAt m 2) (byteAt m 3)).toNat
  | 0x03 => 1
  | 0x04 => 3 + (u16le (byteAt m 1) (byteAt m 2)).toNat
  | 0x05 => 4 + (u16le (byteAt m 2) (byteAt m 3)).toNat
  | 0x06 => 1
  | 0x07 => 1
  | 0x08 => 9 + (u16le (byteAt m 7) (byteAt m 8)).toNat
  | 0x09 => 2
  | 0x0A => 6
  | _ => m.length

/-- The first `k` bytes of a number, least significant first. -/
def numberBytes : Nat → Nat → List Byte
  | 0, _ => []
  | k + 1, w => BitVec.ofNat 8 w :: numberBytes k (w / 256)

/-- The message whose bits are `w`, byte k of it being bits 8k+7 to 8k (the table's numbering), with zero bytes up
to the exact length its own fields give (log 11). -/
def tableMessage (nbits w : Nat) : List Byte :=
  let given := numberBytes ((nbits + 7) / 8) w
  given ++ List.replicate (exactLength given - given.length) 0

/-- The instruction the decoder reads from the table's word `w` of `nbits` bits. -/
def decodeTableWord (nbits w : Nat) : Option Instr :=
  match decode (tableMessage nbits w) with
  | .ok i => some i
  | .rejected _ => none

end Sys2Proof
end

