-- ==== Sys2Proof/Machine/Crc.lean ====
section
/-! DEFINITION. The CRC-16 kernel (40_crc.md R65, R66). -/

namespace Sys2Proof.Machine

/-- POLY (00_scope.md R10). -/
def crcPoly : Half := 0x1021

/-- CRC_INIT (00_scope.md R10). -/
def crcInit : Half := 0xFFFF

/-- One round of R65: "if high bit set, shift left and XOR polynomial; else shift left". -/
def crcRound (c : Half) : Half :=
  if c.getLsbD 15 then (c <<< 1) ^^^ crcPoly else c <<< 1

/-- `k` rounds. -/
def crcRounds : Nat → Half → Half
  | 0, c => c
  | k + 1, c => crcRounds k (crcRound c)

/-- `crc_update` (R65): the byte is XORed into the high byte, then 8 rounds. -/
def crcUpdate (crc : Half) (b : Byte) : Half :=
  crcRounds 8 (crc ^^^ (b.setWidth 16 <<< 8))

/-- `crc16` of a byte sequence (R66). -/
def crc16 (bs : List Byte) : Half :=
  bs.foldl crcUpdate crcInit

end Sys2Proof.Machine
end

