-- ==== Sys2Proof/Machine/Framer.lean ====
section
/-! DEFINITION. The wire frame's constants and the framer function (30_encoding.md R50 to R53, 41_framer.md R71). -/

namespace Sys2Proof.Machine

/-- MARK0, START_LO (00_scope.md R10). -/
def mark0 : Byte := 0x55

/-- MARK1, START_HI (R10). -/
def mark1 : Byte := 0xAA

/-- MAX_PAYLOAD (R6). -/
def maxPayload : Nat := 255

/-! The reserved frame types (R10, 30_encoding.md R53). -/

def typeStart : Byte := 0x01
def typeAck : Byte := 0x02
def typeNack : Byte := 0x03
def typeData : Byte := 0x04
def typeKeepalive : Byte := 0x05
def typeCmd : Byte := 0x06
def typeResp : Byte := 0x07
def typeError : Byte := 0x08

/-- The bytes of a frame the CRC covers: marker, LEN, TYPE, PAYLOAD (41_framer.md R71). -/
def frameBody (type : Byte) (payload : List Byte) : List Byte :=
  [mark0, mark1, BitVec.ofNat 8 payload.length, type] ++ payload

/-- The framer `wire(t, p)`, defined for payloads of at most 255 bytes; every caller checks that first (R71). -/
def wire (type : Byte) (payload : List Byte) : List Byte :=
  let body := frameBody type payload
  body ++ le16 (crc16 body)

end Sys2Proof.Machine
end

