-- ==== Sys2Proof/Config.lean ====
section
/-! DEFINITION. What an implementation or the platform fixes (the OPEN parameters of 92_eei_decisions.md), and the
free values the environment gives when nothing in State scripts its answer (log 1, log 4).
Every constant here is opaque: no proof can see its value. -/

namespace Sys2Proof.Config

/-- How far ACC_CAPACITY lies above its least value 261 (00_scope.md R7: 261 to 65535). -/
opaque accCapacityAbove261 : Fin 65275

/-- How far RX_CHUNK lies above its least value 1 (00_scope.md R8: 1 to 65535). -/
opaque rxChunkAbove1 : Fin 65535

/-- FCH_BASE, the platform's bus address of the command port (20_memory.md R38; no rule depends on it). -/
opaque fchBase : Nat

/-- The transport's answer to a send that no script answers: true for ok (43_transmit.md R92, a draw). -/
opaque freeSendOk : Nat → Bool

/-- The bytes the transport has for a receive that no script answers (43_transmit.md R93, a draw). -/
opaque freeReceive : Nat → List Byte

/-- The tick answered when no script answers (44_handshake.md R99, a draw). -/
opaque freeTick : Nat → Word

/-- Whether a sleep in progress completes at this step when no script says (44_handshake.md R100, a draw). -/
opaque freeSleepDone : Nat → Bool

end Sys2Proof.Config
end

