-- ==== Sys2Proof/Machine/State.lean ====
section
/-! DEFINITION. What the machine holds: the block's state (10_state.md R17 to R28), the parameters of its
configuration, the record of its ports and what the environment will answer; the reasons a step can stop; reset. -/

namespace Sys2Proof.Machine

/-- HS, the handshake state register: 3 bits, one constructor per code 0 to 7 in order (10_state.md R18; log 6). -/
inductive HandshakeState where
  /-- 0: no command in progress, the command port is ready. -/
  | idle
  /-- 1: the frame was accepted by the transport, the start tick is not yet recorded. -/
  | sent
  /-- 2: compare elapsed time with the timeout. -/
  | wCheck
  /-- 3: drain the transport into ACC. -/
  | wDrain
  /-- 4: run the deframer on ACC. -/
  | wParse
  /-- 5: sleep one poll interval. -/
  | wSleep
  /-- 6: unreachable. -/
  | unused6
  /-- 7: unreachable. -/
  | unused7
  deriving DecidableEq, Repr

/-- The status codes of a response by name (30_encoding.md R60). -/
inductive Status where
  | ok | frame | incomplete | none | acked | timedOut | transportError | payloadTooLarge
  | accOverflow | illegalCmd | badReg | malformedCmd
  deriving DecidableEq, Repr

/-- The transport's answer to TxSend (43_transmit.md R92). -/
inductive SendAnswer where
  | ok | fail
  deriving DecidableEq, Repr

/-- One event at a port of the block, in the order the block's steps cause them. -/
inductive PortEvent where
  /-- The command port took the message `m` (10_state.md R29). -/
  | command (m : List Byte)
  /-- The response port emitted the message `m`, STATUS then DATA (R30, 30_encoding.md R59). -/
  | response (m : List Byte)
  /-- The transport port offered the frame `bs` and got the answer (R31). -/
  | txSend (bs : List Byte) (answer : SendAnswer)
  /-- The transport port asked for at most `n` bytes and got `bs` (R31). -/
  | rxReceive (n : Nat) (bs : List Byte)
  /-- The time port asked for the tick and got `t` (R32). -/
  | nowMs (t : Word)
  /-- The time port asked for a sleep of `d` milliseconds (R32). -/
  | sleepMs (d : Word)
  /-- The reset input was asserted (R33). -/
  | reset
  deriving DecidableEq, Repr

/-- The OPEN parameters (00_scope.md R7, R8; 20_memory.md R38): constant in every run (log 4). -/
structure Params where
  accCapacity : Nat
  rxChunk : Nat
  fchBase : Nat
  deriving DecidableEq, Repr

/-- What the outside world will do, each list oldest first (log 1, log 2, log 3). An answer asked for when its list is
empty is a free value of Config. -/
structure Env where
  /-- Messages the host has yet to hand over at the command port (10_state.md R29). -/
  commands : List (List Byte)
  /-- Whether the reset input is asserted at each of the next steps; past the end it is not (R33). -/
  resets : List Bool
  /-- The transport's answers to the next TxSend requests. -/
  sends : List SendAnswer
  /-- The transport's answers to the next RxReceive requests. -/
  receives : List (List Byte)
  /-- The time source's answers to the next NowMs requests. -/
  ticks : List Word
  /-- Whether the sleep in progress completes, for each of the next steps taken in W_SLEEP. -/
  sleeps : List Bool
  /-- How many free values have been taken. -/
  drawn : Nat
  deriving DecidableEq, Repr

/-- The machine. -/
structure State where
  /-- ACC, the Receive Accumulator, front first (R17). -/
  acc : List Byte
  /-- HS (R18). -/
  hs : HandshakeState
  /-- START_TICK; `none` is the spec's "holds no value" (R19, 00_scope.md R16; log 5). -/
  startTick : Option Word
  /-- WAIT_TIMEOUT; `none` is the spec's "holds no value" (R20, R16; log 5). -/
  waitTimeout : Option Word
  /-- GOT; `none` is the spec's "holds no value" (R21, R16; log 5). -/
  got : Option Bool
  /-- CFG[0x00] ACK_TIMEOUT (R24). -/
  ackTimeout : Word
  /-- CFG[0x01] POLL_INTERVAL (R25). -/
  pollInterval : Word
  /-- A SleepMs request is outstanding at the time port (R32, 44_handshake.md R100; log 8). -/
  sleeping : Bool
  /-- The OPEN parameters. -/
  params : Params
  /-- What has crossed the ports, oldest first (log 7). -/
  trace : List PortEvent
  /-- What the outside world will do. -/
  env : Env
  deriving DecidableEq, Repr

/-- The registers that hold no value after reset (10_state.md R34). -/
inductive ValuelessRegister where
  | startTick | waitTimeout | got
  deriving DecidableEq, Repr

/-- Why the machine stops. No instruction's meaning raises one; only the steps of a wait do. -/
inductive Fault where
  /-- Raised by a step that finds HS in code 6 or 7 (10_state.md R18, 93_implementation_defined.md I18).
  Safe: no rule ever writes those codes. -/
  | unusedHandshakeCode (hs : HandshakeState)
  /-- Raised by W_CHECK and W_PARSE when they read a register that holds no value (00_scope.md R16, I19).
  Safe: every wait writes the register before it reads it. -/
  | registerHoldsNoValue (r : ValuelessRegister)
  /-- Raised by W_DRAIN when the transport answers RxReceive with more bytes than asked (43_transmit.md R93, I26; log 9).
  Safe: the spec puts such a transport outside its contract. -/
  | receiveOverrun
  deriving DecidableEq, Repr

/-- Why an instruction has no meaning. -/
inductive Refusal where
  /-- Raised by exec for an instruction not modelled yet; no arm raises it now. Safe. -/
  | notModelled (mnemonic : String)
  deriving DecidableEq, Repr

/-- The parameters of the machine that is reset: any values the spec's ranges allow (log 4). -/
def Params.ofConfig : Params where
  accCapacity := 261 + Config.accCapacityAbove261.val
  rxChunk := 1 + Config.rxChunkAbove1.val
  fchBase := Config.fchBase

/-- An outside world that scripts nothing (log 1, log 2, log 3). -/
def Env.unscripted : Env where
  commands := []
  resets := []
  sends := []
  receives := []
  ticks := []
  sleeps := []
  drawn := 0

/-- The machine right after reset (10_state.md R34, 70_reset_and_hazards.md R135). -/
def State.reset : State where
  acc := []
  hs := .idle
  startTick := none
  waitTimeout := none
  got := none
  ackTimeout := 200
  pollInterval := 10
  sleeping := false
  params := Params.ofConfig
  trace := []
  env := Env.unscripted

end Sys2Proof.Machine
end

