-- ==== Sys2Proof/Machine/Ops.lean ====
section
/-! DEFINITION. The primitives every rule's pseudocode is written in (00_scope.md R15): the accumulator, the four
ports, the response, and the reset action. The block takes no exception (60_exceptions.md R123): an error is a
response like any other, so `respond` stands where another machine's exception entry would. -/

namespace Sys2Proof.Machine

/-- The 3-bit code of HS (10_state.md R18). -/
def HandshakeState.code : HandshakeState → BitVec 3
  | .idle => 0
  | .sent => 1
  | .wCheck => 2
  | .wDrain => 3
  | .wParse => 4
  | .wSleep => 5
  | .unused6 => 6
  | .unused7 => 7

/-- The status codes (30_encoding.md R60). -/
def Status.code : Status → Byte
  | .ok => 0x00
  | .frame => 0x01
  | .incomplete => 0x02
  | .none => 0x03
  | .acked => 0x04
  | .timedOut => 0x10
  | .transportError => 0x11
  | .payloadTooLarge => 0x12
  | .accOverflow => 0x13
  | .illegalCmd => 0x14
  | .badReg => 0x15
  | .malformedCmd => 0x16

/-- Add one event to the record of the ports. -/
def State.record (e : PortEvent) (s : State) : State :=
  { s with trace := s.trace ++ [e] }

/-- `respond STATUS(data)`: emit the response message `[STATUS] ++ data` (30_encoding.md R59). -/
def respond (st : Status) (data : List Byte) (s : State) : State :=
  s.record (.response (st.code :: data))

/-! ## The Receive Accumulator (20_memory.md R35) -/

/-- `AccAppend(bs)`. -/
def accAppend (bs : List Byte) (s : State) : State :=
  { s with acc := s.acc ++ bs }

/-- `AccDropFront(k)`, used only with `k` at most the length of ACC. -/
def accDropFront (k : Nat) (s : State) : State :=
  { s with acc := s.acc.drop k }

/-! ## The environment's answers (log 1): the oldest scripted one, or a free value where none is left -/

/-- The answer to the next TxSend (43_transmit.md R92). -/
def Env.drawSend (e : Env) : SendAnswer × Env :=
  match e.sends with
  | a :: rest => (a, { e with sends := rest })
  | [] => (if Config.freeSendOk e.drawn then .ok else .fail, { e with drawn := e.drawn + 1 })

/-- The answer to the next RxReceive(n). A free answer keeps the transport's contract of at most `n` bytes
(43_transmit.md R93); a scripted one is what the script says. -/
def Env.drawReceive (n : Nat) (e : Env) : List Byte × Env :=
  match e.receives with
  | bs :: rest => (bs, { e with receives := rest })
  | [] => ((Config.freeReceive e.drawn).take n, { e with drawn := e.drawn + 1 })

/-- The answer to the next NowMs (44_handshake.md R99). -/
def Env.drawTick (e : Env) : Word × Env :=
  match e.ticks with
  | t :: rest => (t, { e with ticks := rest })
  | [] => (Config.freeTick e.drawn, { e with drawn := e.drawn + 1 })

/-- Whether the sleep in progress completes at this step (44_handshake.md R100). -/
def Env.drawSleepDone (e : Env) : Bool × Env :=
  match e.sleeps with
  | done :: rest => (done, { e with sleeps := rest })
  | [] => (Config.freeSleepDone e.drawn, { e with drawn := e.drawn + 1 })

/-! ## The transport port (10_state.md R31) and the time port (R32) -/

/-- `TxSend(bs)`: one request, its answer, and the state after the exchange. -/
def txSend (bs : List Byte) (s : State) : SendAnswer × State :=
  let answer := s.env.drawSend
  (answer.1, { s with env := answer.2 }.record (.txSend bs answer.1))

/-- `RxReceive(n)`: one request with its answer, `none` where the transport breaks its contract by answering more
than `n` bytes (43_transmit.md R93, 93_implementation_defined.md I26). -/
def rxReceive (n : Nat) (s : State) : Option (List Byte × State) :=
  let answer := s.env.drawReceive n
  if answer.1.length ≤ n then
    some (answer.1, { s with env := answer.2 }.record (.rxReceive n answer.1))
  else none

/-- `NowMs()`: one tick request with its answer. -/
def nowMs (s : State) : Word × State :=
  let answer := s.env.drawTick
  (answer.1, { s with env := answer.2 }.record (.nowMs answer.1))

/-- `SleepMs(d)` seen at one step: the request is made once, and each step asks whether the time source has
completed it (44_handshake.md R100; log 8). -/
def sleepMs (d : Word) (s : State) : Bool × State :=
  let asked := if s.sleeping then s else s.record (.sleepMs d)
  let answer := asked.env.drawSleepDone
  (answer.1, { asked with sleeping := !answer.1, env := answer.2 })

/-! ## The command port and the reset input (R29, R33) -/

/-- The host command port is ready only when HS = IDLE (R29). -/
def State.portReady (s : State) : Bool :=
  s.hs == .idle

/-- The reset input is asserted at this step. -/
def Env.resetNow (e : Env) : Bool :=
  e.resets.headD false

/-- The step's place in the schedule of the reset input is used up. -/
def State.passReset (s : State) : State :=
  { s with env := { s.env with resets := s.env.resets.tail } }

/-- The reset action (70_reset_and_hazards.md R135). The parameters, the outside world and the record of the ports
are not the block's to reset (R136; log 16). -/
def resetAction (s : State) : State :=
  { State.reset with params := s.params, env := s.env, trace := s.trace ++ [.reset] }

/-- The host hands the message `m` over as the next one the command port will take: HS = IDLE, `m` at the head of
the host's queue, and the next step is no reset (log 10). -/
def State.placeMessage (m : List Byte) (s : State) : State :=
  { s with
    hs := .idle
    env := { s.env with commands := m :: s.env.commands, resets := s.env.resets.set 0 false } }

end Sys2Proof.Machine
end

