-- ==== Sys2Proof/Machine/Operands.lean ====
section
/-! DEFINITION. Operands: the configuration registers (10_state.md R23 to R28) and the timeout a wait takes
(44_handshake.md R104). -/

namespace Sys2Proof.Machine

/-! The register numbers (R23). -/

def regAckTimeout : Byte := 0x00
def regPollInterval : Byte := 0x01
def regMaxPayload : Byte := 0x02
def regAccCount : Byte := 0x03

/-- The value of `CFG[n]`; `none` where `n` names no register (45_config.md R118). -/
def cfgRead (n : Byte) (s : State) : Option Word :=
  if n = regAckTimeout then some s.ackTimeout
  else if n = regPollInterval then some s.pollInterval
  else if n = regMaxPayload then some (BitVec.ofNat 32 maxPayload)
  else if n = regAccCount then some (BitVec.ofNat 32 s.acc.length)
  else none

/-- The state with `CFG[n]` written; `none` where `n` is read-only or names no register (45_config.md R119). -/
def cfgWrite (n : Byte) (v : Word) (s : State) : Option State :=
  if n = regAckTimeout then some { s with ackTimeout := v }
  else if n = regPollInterval then some { s with pollInterval := v }
  else none

/-- The timeout of a wait: CFG[0x00] when USE_DEFAULT is set, the TIMEOUT field otherwise (30_encoding.md R58). -/
def waitTimeoutOperand (useDefault : Bool) (timeout : Word) (s : State) : Word :=
  if useDefault then s.ackTimeout else timeout

/-- The largest number of bytes one drain asks for: `min(RX_CHUNK, ACC_CAPACITY - |ACC|)` (44_handshake.md R107). -/
def drainSize (s : State) : Nat :=
  min s.params.rxChunk (s.params.accCapacity - s.acc.length)

end Sys2Proof.Machine
end

