-- ==== Sys2Proof/Machine/ConfigAccess.lean ====
section
/-! DEFINITION. CFG_READ and CFG_WRITE (45_config.md R118, R119). -/

namespace Sys2Proof.Machine

/-- CFG_READ (45_config.md R118). -/
def execCfgRead (reg : Byte) (s : State) : Host.Outcome State Fault Refusal :=
  .next
    (match cfgRead reg s with
     | some v => respond .ok (le32 v) s
     | none => respond .badReg [] s)

/-- CFG_WRITE (45_config.md R119). -/
def execCfgWrite (reg : Byte) (value : Word) (s : State) : Host.Outcome State Fault Refusal :=
  .next
    (match cfgWrite reg value s with
     | some t => respond .ok [] t
     | none => respond .badReg [] s)

end Sys2Proof.Machine
end

