-- ==== Sys2Proof/Machine/Deframer.lean ====
section
/-! DEFINITION. The deframer function `parse` (42_deframer.md R74 to R81). -/

namespace Sys2Proof.Machine

/-- A frame: a type and a payload (30_encoding.md R49). -/
structure Frame where
  type : Byte
  payload : List Byte
  deriving DecidableEq, Repr

/-- The status of a parse, with the frame where there is one (42_deframer.md R75). -/
inductive ParseOutcome where
  | frame (f : Frame)
  | incomplete
  | none
  deriving DecidableEq, Repr

/-- The sequence begins with the start marker. -/
def startsWithMarker : List Byte → Bool
  | a :: b :: _ => a == mark0 && b == mark1
  | _ => false

/-- `firstMarker(A)`, the least marker position (R74). -/
def firstMarker : List Byte → Option Nat
  | [] => none
  | a :: rest => if startsWithMarker (a :: rest) then some 0 else (firstMarker rest).map (· + 1)

/-- LEN of the candidate at the front of a sequence that holds its header (30_encoding.md R51). -/
def candidateLen (bs : List Byte) : Nat :=
  (byteAt bs 2).toNat

/-- TYPE of the candidate at the front (R51). -/
def candidateType (bs : List Byte) : Byte :=
  byteAt bs 3

/-- PAYLOAD of the candidate at the front (R51). -/
def candidatePayload (bs : List Byte) : List Byte :=
  (bs.drop 4).take (candidateLen bs)

/-- The CRC computed over the bytes it covers agrees with the two bytes that follow them (42_deframer.md R80). -/
def candidateCrcMatches (bs : List Byte) : Bool :=
  crc16 (bs.take (4 + candidateLen bs))
    == u16le (byteAt bs (4 + candidateLen bs)) (byteAt bs (5 + candidateLen bs))

/-- The loop of `parse` (R75) with a bound on its passes; R83 shows that `|A| + 1` passes suffice, so the bound is
never reached from `parse`. -/
def parseLoop : Nat → List Byte → ParseOutcome × List Byte
  | 0, A => (.none, A)
  | passes + 1, A =>
    match firstMarker A with
    | none => if A.getLast? = some mark0 then (.incomplete, [mark0]) else (.none, [])
    | some m =>
      let C := A.drop m
      if C.length < 4 then (.incomplete, C)
      else if C.length < 6 + candidateLen C then (.incomplete, C)
      else if candidateCrcMatches C then
        (.frame ⟨candidateType C, candidatePayload C⟩, C.drop (6 + candidateLen C))
      else parseLoop passes (C.drop 1)

/-- The deframer `parse(A)`: the outcome and the bytes that stay (R75). -/
def parse (A : List Byte) : ParseOutcome × List Byte :=
  parseLoop (A.length + 1) A

end Sys2Proof.Machine
end

