-- ==== Sys2Proof/Machine/Codec.lean ====
section
/-! DEFINITION. The codec's commands: CRC16, CONSTRUCT, PARSE, ACC_APPEND (40_crc.md R69, 41_framer.md R72,
42_deframer.md R85, R86). -/

namespace Sys2Proof.Machine

/-- CRC16 (40_crc.md R69). -/
def execCrc16 (data : List Byte) (s : State) : Host.Outcome State Fault Refusal :=
  .next (respond .ok (le16 (crc16 data)) s)

/-- CONSTRUCT (41_framer.md R72). -/
def execConstruct (type : Byte) (payload : List Byte) (s : State) : Host.Outcome State Fault Refusal :=
  .next
    (if maxPayload < payload.length then respond .payloadTooLarge [] s
     else respond .ok (length16 (wire type payload) ++ wire type payload) s)

/-- The accumulator's part of a parse: `AccDropFront(|ACC| - |A'|)` (42_deframer.md R85). -/
def dropParsed (s : State) : State :=
  accDropFront (s.acc.length - (parse s.acc).2.length) s

/-- PARSE (42_deframer.md R85). -/
def execParse (s : State) : Host.Outcome State Fault Refusal :=
  .next
    (match (parse s.acc).1 with
     | .frame f => respond .frame ([f.type, BitVec.ofNat 8 f.payload.length] ++ f.payload) (dropParsed s)
     | .incomplete => respond .incomplete [] (dropParsed s)
     | .none => respond .none [] (dropParsed s))

/-- ACC_APPEND (42_deframer.md R86): all or nothing. -/
def execAccAppend (data : List Byte) (s : State) : Host.Outcome State Fault Refusal :=
  .next
    (if s.params.accCapacity < s.acc.length + data.length then respond .accOverflow [] s
     else respond .ok [] (accAppend data s))

end Sys2Proof.Machine
end

