-- ==== Sys2Proof/Machine/Flags.lean ====
section
/-! DEFINITION. The block's one status flag, GOT (10_state.md R21), and the timeout comparator
(44_handshake.md R102, R103). There are no condition codes. -/

namespace Sys2Proof.Machine

/-- GOT after a drain that received `bs`: set when it received at least one byte (44_handshake.md R107). -/
def gotFlag (bs : List Byte) : Bool :=
  decide (0 < bs.length)

/-- Elapsed time, wrap-around subtraction modulo 2^32 (R102). -/
def elapsed (now start : Word) : Word :=
  now - start

/-- The wait continues: elapsed time is below the timeout, unsigned (R103). -/
def beforeDeadline (now start timeout : Word) : Bool :=
  (elapsed now start).ult timeout

end Sys2Proof.Machine
end

