-- ==== Sys2Proof/Machine/Handshake.lean ====
section
/-! DEFINITION. SEND_FRAME_WAIT_ACK and the steps of its wait, one per state of HS (44_handshake.md R98, R104 to R109). -/

namespace Sys2Proof.Machine

/-- SEND_FRAME_WAIT_ACK, the step in IDLE that accepts it (44_handshake.md R104). -/
def execSendFrameWaitAck (useDefault : Bool) (type : Byte) (timeout : Word) (payload : List Byte) (s : State) :
    Host.Outcome State Fault Refusal :=
  .next
    (if maxPayload < payload.length then respond .payloadTooLarge [0x00] s
     else
       let sent := txSend (wire type payload) s
       match sent.1 with
       | .fail => respond .transportError [0x00] sent.2
       | .ok =>
         { sent.2 with
           waitTimeout := some (waitTimeoutOperand useDefault timeout s)
           hs := .sent })

/-- SENT: record the start tick (44_handshake.md R105). -/
def stepSent (s : State) : Host.Outcome State Fault Refusal :=
  let now := nowMs s
  .next { now.2 with startTick := some now.1, hs := .wCheck }

/-- W_CHECK: test the deadline (44_handshake.md R106). -/
def stepCheck (s : State) : Host.Outcome State Fault Refusal :=
  match s.startTick, s.waitTimeout with
  | none, _ => .fault (.registerHoldsNoValue .startTick)
  | some _, none => .fault (.registerHoldsNoValue .waitTimeout)
  | some start, some timeout =>
    let now := nowMs s
    if beforeDeadline now.1 start timeout then .next { now.2 with hs := .wDrain }
    else .next { respond .timedOut [0x00] now.2 with hs := .idle }

/-- W_DRAIN: move the bytes the transport has into ACC (44_handshake.md R107). -/
def stepDrain (s : State) : Host.Outcome State Fault Refusal :=
  match rxReceive (drainSize s) s with
  | none => .fault .receiveOverrun
  | some (bs, t) => .next { accAppend bs t with got := some (gotFlag bs), hs := .wParse }

/-- W_PARSE: decode one frame and act on its type (44_handshake.md R108). -/
def stepParse (s : State) : Host.Outcome State Fault Refusal :=
  match (parse s.acc).1 with
  | .frame f =>
    if f.type = typeAck then .next { respond .acked [0x01] (dropParsed s) with hs := .idle }
    else .next { dropParsed s with hs := .wParse }
  | .incomplete | .none =>
    match s.got with
    | none => .fault (.registerHoldsNoValue .got)
    | some true => .next { dropParsed s with hs := .wCheck }
    | some false => .next { dropParsed s with hs := .wSleep }

/-- W_SLEEP: back off one poll interval; the step ends when the time source completes the sleep, and until then the
block stays in W_SLEEP (44_handshake.md R109, R100). -/
def stepSleep (s : State) : Host.Outcome State Fault Refusal :=
  let slept := sleepMs s.pollInterval s
  .next (if slept.1 then { slept.2 with hs := .wCheck } else slept.2)

end Sys2Proof.Machine
end

