-- ==== Sys2Proof/Machine/Illegal.lean ====
section
/-! DEFINITION. Messages whose opcode names no command (45_config.md R120), and malformed messages (R121). -/

namespace Sys2Proof.Machine

/-- Refuse a message with an illegal opcode: `respond ILLEGAL_CMD([])`, no other effect (45_config.md R120). -/
def refuseIllegal (s : State) : State :=
  respond .illegalCmd [] s

/-- Opcode 0x00 (45_config.md R120); the bytes that follow do not matter. -/
def execIllegalZero (_rest : List Byte) (s : State) : Host.Outcome State Fault Refusal :=
  .next (refuseIllegal s)

/-- Opcodes 0x0B to 0xFF (45_config.md R120); the opcode and the bytes that follow do not matter. -/
def execIllegalHigh (_opcode : Byte) (_rest : List Byte) (s : State) : Host.Outcome State Fault Refusal :=
  .next (refuseIllegal s)

/-- A malformed or empty message: `respond MALFORMED_CMD([])`, no other effect (45_config.md R121). -/
def refuseMalformed (s : State) : Host.Outcome State Fault Refusal :=
  .next (respond .malformedCmd [] s)

end Sys2Proof.Machine
end

