-- ==== Sys2Proof/Machine/Transmit.lean ====
section
/-! DEFINITION. The commands that send one frame: SEND_FRAME, SEND_ACK, SEND_START_WORD (43_transmit.md R95 to R97). -/

namespace Sys2Proof.Machine

/-- Hand one wire frame to the transport, once, and respond with what it answered (43_transmit.md R95). -/
def sendOnce (type : Byte) (payload : List Byte) (s : State) : State :=
  let sent := txSend (wire type payload) s
  match sent.1 with
  | .ok => respond .ok [] sent.2
  | .fail => respond .transportError [] sent.2

/-- SEND_FRAME (43_transmit.md R95). -/
def execSendFrame (type : Byte) (payload : List Byte) (s : State) : Host.Outcome State Fault Refusal :=
  .next
    (if maxPayload < payload.length then respond .payloadTooLarge [] s
     else sendOnce type payload s)

/-- SEND_ACK (43_transmit.md R96). -/
def execSendAck (s : State) : Host.Outcome State Fault Refusal :=
  .next (sendOnce typeAck [] s)

/-- SEND_START_WORD (43_transmit.md R97). -/
def execSendStartWord (s : State) : Host.Outcome State Fault Refusal :=
  .next (sendOnce typeStart [] s)

end Sys2Proof.Machine
end

