-- ==== Sys2Proof/Machine/Dispatch.lean ====
section
/-! DEFINITION. Dispatch of an accepted command to its meaning (45_config.md R117). -/

namespace Sys2Proof.Machine

def exec (i : Instr) (s : State) : Host.Outcome State Fault Refusal :=
  match i with
  | .crc16 data => Sys2Proof.Machine.execCrc16 data s
  | .construct type payload => Sys2Proof.Machine.execConstruct type payload s
  | .parse => Sys2Proof.Machine.execParse s
  | .accAppend data => Sys2Proof.Machine.execAccAppend data s
  | .sendFrame type payload => Sys2Proof.Machine.execSendFrame type payload s
  | .sendAck => Sys2Proof.Machine.execSendAck s
  | .sendStartWord => Sys2Proof.Machine.execSendStartWord s
  | .sendFrameWaitAck useDefault type timeout payload => Sys2Proof.Machine.execSendFrameWaitAck useDefault type timeout payload s
  | .cfgRead reg => Sys2Proof.Machine.execCfgRead reg s
  | .cfgWrite reg value => Sys2Proof.Machine.execCfgWrite reg value s
  | .illegalZero rest => Sys2Proof.Machine.execIllegalZero rest s
  | .illegalHigh opcode rest => Sys2Proof.Machine.execIllegalHigh opcode rest s

end Sys2Proof.Machine
end

