-- ==== Sys2Proof/Machine/Accept.lean ====
section
/-! DEFINITION. The command port's step in IDLE, and which step HS selects (45_config.md R117, 10_state.md R18). -/

namespace Sys2Proof.Machine

/-- `accept(m)`: decode the message and run its command, or refuse it as malformed (45_config.md R117). -/
def accept (m : List Byte) (s : State) : Host.Outcome State Fault Refusal :=
  match decode m with
  | .ok i => exec i (s.record (.command m))
  | .rejected _ => refuseMalformed (s.record (.command m))

/-- IDLE: take the host's next message; with none offered the block waits, and nothing changes (log 2). -/
def stepIdle (s : State) : Host.Outcome State Fault Refusal :=
  match s.env.commands with
  | [] => .next s
  | m :: rest => accept m { s with env := { s.env with commands := rest } }

/-- The one step that HS selects (10_state.md R18); codes 6 and 7 are a broken invariant. -/
def stepBlock (s : State) : Host.Outcome State Fault Refusal :=
  match s.hs with
  | .idle => stepIdle s
  | .sent => stepSent s
  | .wCheck => stepCheck s
  | .wDrain => stepDrain s
  | .wParse => stepParse s
  | .wSleep => stepSleep s
  | .unused6 => .fault (.unusedHandshakeCode .unused6)
  | .unused7 => .fault (.unusedHandshakeCode .unused7)

end Sys2Proof.Machine
end

