-- ==== Sys2Proof/Machine/Step.lean ====
section
/-! DEFINITION. One atomic step of the machine (00_scope.md R4): the reset input takes precedence over the step that
HS selects (70_reset_and_hazards.md R136, 60_exceptions.md R129). -/

namespace Sys2Proof.Machine

/-- One step. -/
def step (s : State) : Host.Outcome State Fault Refusal :=
  if s.env.resetNow then .next (resetAction s.passReset) else stepBlock s.passReset

/-- The state in which the host hands over, as the next message, the one whose bits are `w` (log 10, log 11). -/
def State.withFetchWord (s : State) (nbits w : Nat) : State :=
  s.placeMessage (tableMessage nbits w)

end Sys2Proof.Machine
end

