-- ==== Sys2Proof/Safety.lean ====
section
/-! DEFINITION. The terms claims are stated in: the invariant of the machine, the order of events at its ports, the
format table of R57 as numbers, the candidates of a buffer (42_deframer.md R84), and the assumptions about the time
source (44_handshake.md R101). Nothing here is used by the step. -/

namespace Sys2Proof.Machine

/-! ## The invariant -/

/-- The OPEN parameters lie in their ranges (00_scope.md R7, R8). -/
structure Params.InRange (p : Params) : Prop where
  capacity_low : 261 ≤ p.accCapacity
  capacity_high : p.accCapacity ≤ 65535
  chunk_low : 1 ≤ p.rxChunk
  chunk_high : p.rxChunk ≤ 65535

/-- What holds of every state the machine can reach, and is kept by every step. -/
structure State.Inv (s : State) : Prop where
  /-- The parameters are legal. -/
  params : s.params.InRange
  /-- The capacity invariant (20_memory.md R36). -/
  acc_fits : s.acc.length ≤ s.params.accCapacity
  /-- HS is never in code 6 or 7 (10_state.md R18). -/
  hs_used : s.hs ≠ .unused6 ∧ s.hs ≠ .unused7
  /-- WAIT_TIMEOUT is written before a wait reads it (00_scope.md R16). -/
  timeout_held : s.hs ≠ .idle → s.waitTimeout.isSome
  /-- START_TICK is written before a wait reads it (R16). -/
  start_held : s.hs ≠ .idle → s.hs ≠ .sent → s.startTick.isSome
  /-- GOT is written before a wait reads it (R16). -/
  got_held : s.hs = .wParse → s.got.isSome
  /-- W_SLEEP is entered only when the iteration's drain received no byte (44_handshake.md R108). -/
  sleep_without_bytes : s.hs = .wSleep → s.got = some false
  /-- A sleep is outstanding only in W_SLEEP. -/
  sleep_only_there : s.sleeping = true → s.hs = .wSleep

/-! ## The order of events at the ports -/

/-- One event, seen by an observer who knows whether a command is in progress: a command is taken only when none is,
its one response ends it, transport and time requests belong to a command in progress, and reset abandons it
(10_state.md R29, R30; 70_reset_and_hazards.md R136). `none` is a broken order. -/
def portOrder : Option Bool → PortEvent → Option Bool
  | none, _ => none
  | some _, .reset => some false
  | some inProgress, .command _ => if inProgress then none else some true
  | some inProgress, .response _ => if inProgress then some false else none
  | some inProgress, .txSend _ _ => if inProgress then some true else none
  | some inProgress, .rxReceive _ _ => if inProgress then some true else none
  | some inProgress, .nowMs _ => if inProgress then some true else none
  | some inProgress, .sleepMs _ => if inProgress then some true else none

/-- The record of the ports is in order, and a command is in progress exactly when HS is not IDLE. -/
def State.PortsInOrder (s : State) : Prop :=
  s.trace.foldl portOrder (some false) = some (!s.portReady)

/-- The events a step added. -/
def newEvents (s t : State) : List PortEvent :=
  t.trace.drop s.trace.length

/-! ## The command formats (30_encoding.md R57, R62) -/

/-- One legal opcode: the bytes of its fixed part, and the offset of its 16-bit length field where it has one. -/
structure CommandFormat where
  opcode : Nat
  fixed : Nat
  lengthAt : Option Nat
  deriving DecidableEq, Repr

/-- The table of R57. -/
def commandFormats : List CommandFormat :=
  [⟨0x01, 3, some 1⟩, ⟨0x02, 4, some 2⟩, ⟨0x03, 1, none⟩, ⟨0x04, 3, some 1⟩, ⟨0x05, 4, some 2⟩,
   ⟨0x06, 1, none⟩, ⟨0x07, 1, none⟩, ⟨0x08, 9, some 7⟩, ⟨0x09, 2, none⟩, ⟨0x0A, 6, none⟩]

/-- The exact length a message of this format must have, from its own length field. -/
def CommandFormat.exact (f : CommandFormat) (m : List Byte) : Nat :=
  match f.lengthAt with
  | some k => f.fixed + (m.getD k 0).toNat + 256 * (m.getD (k + 1) 0).toNat
  | none => f.fixed

/-- A message with this format's opcode is malformed (R62). -/
def CommandFormat.Malformed (f : CommandFormat) (m : List Byte) : Prop :=
  m.length < f.fixed ∨ m.length ≠ f.exact m ∨ (f.opcode = 0x08 ∧ 2 ≤ (m.getD 1 0).toNat)

/-- The command port refuses `m` as malformed: MALFORMED_CMD with no data, and no other effect (45_config.md R121). -/
def RefusedAsMalformed (m : List Byte) : Prop :=
  ∀ s : State, accept m s = .next { s with trace := s.trace ++ [.command m, .response [0x16]] }

/-! ## The candidates of a buffer (42_deframer.md R74, R84) -/

/-- Index `i` is a marker position of `A` (R74). -/
def IsMarker (A : List Byte) (i : Nat) : Prop :=
  i + 1 < A.length ∧ A.getD i 0 = 0x55 ∧ A.getD (i + 1) 0 = 0xAA

/-- The length a candidate at `i` needs: `6 + LEN`. -/
def neededAt (A : List Byte) (i : Nat) : Nat :=
  6 + (A.getD (i + 2) 0).toNat

/-- The candidate at `i` is incomplete (R84). -/
def IsIncomplete (A : List Byte) (i : Nat) : Prop :=
  A.length - i < 4 ∨ A.length - i < neededAt A i

/-- The CRC of the candidate at `i` agrees with its last two bytes. -/
def CrcAgrees (A : List Byte) (i : Nat) : Prop :=
  crc16 ((A.drop i).take (neededAt A i - 2))
    = u16le (A.getD (i + neededAt A i - 2) 0) (A.getD (i + neededAt A i - 1) 0)

/-- The candidate at `i` is valid: complete, with an agreeing CRC (R84). -/
def IsValid (A : List Byte) (i : Nat) : Prop :=
  ¬ IsIncomplete A i ∧ CrcAgrees A i

/-- The candidate at `i` is corrupt: complete, with a CRC that does not agree (R84). -/
def IsCorrupt (A : List Byte) (i : Nat) : Prop :=
  ¬ IsIncomplete A i ∧ ¬ CrcAgrees A i

/-- `i` is the first marker position whose candidate is not corrupt (R84). -/
def DecidesAt (A : List Byte) (i : Nat) : Prop :=
  IsMarker A i ∧ ¬ IsCorrupt A i ∧ ∀ j, j < i → IsMarker A j → IsCorrupt A j

/-- `v` is `u` with exactly the bit `b` of byte `k` flipped. -/
def flipBit (u : List Byte) (k b : Nat) : List Byte :=
  u.set k (u.getD k 0 ^^^ BitVec.ofNat 8 (2 ^ b))

/-- Frames one behind the other on the wire. -/
def wires (fs : List Frame) : List Byte :=
  fs.flatMap fun f => wire f.type f.payload

/-! ## Infinite runs, and the assumptions about the time source (44_handshake.md R101): premises of claims, never facts -/

/-- An infinite run: each state is the next state of the one before it. -/
def IsRun (σ : Nat → State) : Prop :=
  ∀ n, step (σ n) = .next (σ (n + 1))

/-- The step taken in this state samples the tick (R99): SENT or W_CHECK, with no reset asserted. -/
def State.Samples (s : State) : Prop :=
  s.env.resetNow = false ∧ (s.hs = .sent ∨ s.hs = .wCheck)

/-- The tick such a step is answered. -/
def State.sample (s : State) : Word :=
  s.passReset.env.drawTick.1

/-- TA1 (R101): `rt n` is real time when step `n` of the run is taken; it never goes back, and every tick answered
there is `(T0 + rt) mod 2^32`. -/
structure TA1 (t0 : Nat) (rt : Nat → Nat) (σ : Nat → State) : Prop where
  never_back : ∀ n, rt n ≤ rt (n + 1)
  reads : ∀ n, (σ n).Samples → (σ n).sample = BitVec.ofNat 32 (t0 + rt n)

/-- TA2 (R101): in the infinite run real time grows without bound, and every sleep completes: W_SLEEP is left again,
after any number of steps. -/
structure TA2 (rt : Nat → Nat) (σ : Nat → State) : Prop where
  grows : ∀ bound, ∃ n, bound ≤ rt n
  sleeps_complete : ∀ n, (σ n).hs = .wSleep → ∃ m, n ≤ m ∧ (σ m).hs ≠ .wSleep

/-- TA3 (R101): within one wait, real time between two successive samples (SENT then W_CHECK, or W_CHECK then W_CHECK)
is below `2^32 - WAIT_TIMEOUT`. -/
def TA3 (rt : Nat → Nat) (σ : Nat → State) : Prop :=
  ∀ i j timeout, i < j → (σ i).Samples → (σ j).Samples → (∀ k, i < k → k < j → ¬ (σ k).Samples) →
    (σ j).hs = .wCheck → (σ j).waitTimeout = some timeout → rt j - rt i < 2 ^ 32 - timeout.toNat

/-- What a state scripts reaches a deadline: every scripted sleep completes at the first step that asks, there are
enough of them, and the scripted tick at index `k` finds the deadline passed (log 21). This is one environment, not
TA2. -/
structure ScriptReachesDeadline (s : State) (start timeout : Word) (k : Nat) : Prop where
  sleeps_complete : ∀ done ∈ s.env.sleeps, done = true
  enough_sleeps : k + 1 ≤ s.env.sleeps.length
  deadline : ∃ t, s.env.ticks[k]? = some t ∧ beforeDeadline t start timeout = false

/-- The transport keeps its contract at a drain taken in this state (43_transmit.md R93). -/
def ReceiveInContract (s : State) : Prop :=
  (s.env.drawReceive (drainSize s)).1.length ≤ drainSize s

/-- `n` steps of the machine. -/
def run (n : Nat) (s : State) : Host.Outcome State Fault Refusal :=
  Sys2Proof.core.run n s

/-- No reset is asserted in what the state scripts. -/
def NoReset (s : State) : Prop :=
  ∀ r ∈ s.env.resets, r = false

end Sys2Proof.Machine
end

