-- ==== Sys2Proof/Certificates/Slice0/Obligations.lean ====
section
/-! DEFINITION. The statements about the model, from the numbered rules of spec/. In every statement about `step`, the
hypothesis `s.env.resetNow = false` says that the reset input is not asserted at this step; `s.passReset` is `s` with
that step's place in the reset schedule used up. -/

open Sys2Proof Sys2Proof.Machine

/-! ## Encoding -/

/-- Decoding the message that states a well-formed instruction gives that instruction back (30_encoding.md R57). -/
def Obligations.DecodeAfterEncode : Prop :=
  ∀ i : Instr, i.wellFormed = true → decode (encode i) = .ok i

/-- Every message that decodes is the one message of a well-formed instruction: no byte of a message is dropped
(30_encoding.md R57, R58). -/
def Obligations.EncodeAfterDecode : Prop :=
  ∀ (m : List Byte) (i : Instr), decode m = .ok i → i.wellFormed = true ∧ encode i = m

/-- 30_encoding.md R62 with 45_config.md R121: exactly the empty message and the malformed ones are rejected, and a
step that takes one responds MALFORMED_CMD and changes no state of the block. -/
def Obligations.MalformedMessagesRefused : Prop :=
  (∀ m : List Byte,
    (∃ why, decode m = .rejected why) ↔
      m = [] ∨ ∃ f ∈ commandFormats, m.head?.map BitVec.toNat = some f.opcode ∧ f.Malformed m) ∧
  ∀ (s : State) (m : List Byte) (rest : List (List Byte)) (why : Malformed),
    s.env.resetNow = false → s.hs = .idle → s.env.commands = m :: rest → decode m = .rejected why →
    step s = .next
      { s with
        env := { s.passReset.env with commands := rest }
        trace := s.trace ++ [.command m, .response [0x16]] }

/-- Messages written out byte by byte from 30_encoding.md R57 and R63, one for each opcode and for each end of the
illegal ranges. -/
def Obligations.SampleMessagesDecode : Prop :=
  decode [0x01, 0x02, 0x00, 0x31, 0x32] = .ok (.crc16 [0x31, 0x32]) ∧
  decode [0x02, 0x04, 0x03, 0x00, 0x01, 0x02, 0x03] = .ok (.construct 0x04 [0x01, 0x02, 0x03]) ∧
  decode [0x03] = .ok .parse ∧
  decode [0x04, 0x01, 0x00, 0x12] = .ok (.accAppend [0x12]) ∧
  decode [0x05, 0x05, 0x00, 0x00] = .ok (.sendFrame 0x05 []) ∧
  decode [0x06] = .ok .sendAck ∧
  decode [0x07] = .ok .sendStartWord ∧
  decode [0x08, 0x00, 0x04, 0xF4, 0x01, 0x00, 0x00, 0x03, 0x00, 0x01, 0x02, 0x03]
    = .ok (.sendFrameWaitAck false 0x04 500 [0x01, 0x02, 0x03]) ∧
  decode [0x08, 0x01, 0x06, 0x00, 0x00, 0x00, 0x00, 0x02, 0x00, 0x10, 0x20]
    = .ok (.sendFrameWaitAck true 0x06 0 [0x10, 0x20]) ∧
  decode [0x09, 0x03] = .ok (.cfgRead 0x03) ∧
  decode [0x0A, 0x00, 0xF4, 0x01, 0x00, 0x00] = .ok (.cfgWrite 0x00 500) ∧
  decode [0x00] = .ok (.illegalZero []) ∧
  decode [0x0B] = .ok (.illegalHigh 0x0B []) ∧
  decode [0xFF, 0x00, 0x00] = .ok (.illegalHigh 0xFF [0x00, 0x00])

/-! ## Dispatch -/

/-- A step in IDLE runs the instruction the host's message decodes to (45_config.md R117). -/
def Obligations.StepRunsDecodedCommand : Prop :=
  ∀ (s : State) (m : List Byte) (rest : List (List Byte)) (i : Instr),
    s.env.resetNow = false → s.hs = .idle → s.env.commands = m :: rest → decode m = .ok i →
    step s = exec i
      { s with
        env := { s.passReset.env with commands := rest }
        trace := s.trace ++ [.command m] }

/-- The command port takes nothing while a wait is in progress, and a step outside IDLE never records a command
(10_state.md R29). -/
def Obligations.NoCommandTakenDuringWait : Prop :=
  ∀ s t : State, s.hs ≠ .idle → step s = .next t →
    t.env.commands = s.env.commands ∧ ∀ m, PortEvent.command m ∉ newEvents s t

/-- 45_config.md R120: opcodes 0x00 and 0x0B to 0xFF, whatever bytes follow, are refused with ILLEGAL_CMD and change
nothing but the record of the response. -/
def Obligations.IllegalOpcodesRefused : Prop :=
  (∀ rest : List Byte, decode (0x00 :: rest) = .ok (.illegalZero rest)) ∧
  (∀ (op : Byte) (rest : List Byte), 0x0B ≤ op.toNat → decode (op :: rest) = .ok (.illegalHigh op rest)) ∧
  (∀ (rest : List Byte) (s : State),
    exec (.illegalZero rest) s = .next { s with trace := s.trace ++ [.response [0x14]] }) ∧
  ∀ (op : Byte) (rest : List Byte) (s : State),
    exec (.illegalHigh op rest) s = .next { s with trace := s.trace ++ [.response [0x14]] }

/-! ## The CRC kernel -/

/-- 40_crc.md R67: the byte-parallel form of one byte update. -/
def Obligations.CrcByteParallelForm : Prop :=
  ∀ (crc : Half) (b : Byte),
    let x0 : Byte := crc.extractLsb' 8 8 ^^^ b
    let x : Byte := x0 ^^^ (x0 >>> 4)
    crcUpdate crc b
      = (crc <<< 8) ^^^ (x.setWidth 16 <<< 12) ^^^ (x.setWidth 16 <<< 5) ^^^ x.setWidth 16

/-- 40_crc.md R68: the sixteen XOR equations of one byte update, and its linearity over GF(2). -/
def Obligations.CrcBitEquations : Prop :=
  (∀ (crc : Half) (b : Byte),
    let c := fun k : Nat => crc.getLsbD k
    let d := fun k : Nat => b.getLsbD k
    let n := fun k : Nat => (crcUpdate crc b).getLsbD k
    n 0 = (c 8 ^^ c 12 ^^ d 0 ^^ d 4) ∧
    n 1 = (c 9 ^^ c 13 ^^ d 1 ^^ d 5) ∧
    n 2 = (c 10 ^^ c 14 ^^ d 2 ^^ d 6) ∧
    n 3 = (c 11 ^^ c 15 ^^ d 3 ^^ d 7) ∧
    n 4 = (c 12 ^^ d 4) ∧
    n 5 = (c 8 ^^ c 12 ^^ c 13 ^^ d 0 ^^ d 4 ^^ d 5) ∧
    n 6 = (c 9 ^^ c 13 ^^ c 14 ^^ d 1 ^^ d 5 ^^ d 6) ∧
    n 7 = (c 10 ^^ c 14 ^^ c 15 ^^ d 2 ^^ d 6 ^^ d 7) ∧
    n 8 = (c 0 ^^ c 11 ^^ c 15 ^^ d 3 ^^ d 7) ∧
    n 9 = (c 1 ^^ c 12 ^^ d 4) ∧
    n 10 = (c 2 ^^ c 13 ^^ d 5) ∧
    n 11 = (c 3 ^^ c 14 ^^ d 6) ∧
    n 12 = (c 4 ^^ c 8 ^^ c 12 ^^ c 15 ^^ d 0 ^^ d 4 ^^ d 7) ∧
    n 13 = (c 5 ^^ c 9 ^^ c 13 ^^ d 1 ^^ d 5) ∧
    n 14 = (c 6 ^^ c 10 ^^ c 14 ^^ d 2 ^^ d 6) ∧
    n 15 = (c 7 ^^ c 11 ^^ c 15 ^^ d 3 ^^ d 7)) ∧
  ∀ (c c' : Half) (d d' : Byte), crcUpdate (c ^^^ c') (d ^^^ d') = crcUpdate c d ^^^ crcUpdate c' d'

/-- 40_crc.md R70: the four properties of the CRC, the detection of every single-bit error among them. -/
def Obligations.CrcProperties : Prop :=
  crc16 [] = 0xFFFF ∧
  crc16 [0x31, 0x32, 0x33, 0x34, 0x35, 0x36, 0x37, 0x38, 0x39] = 0x29B1 ∧
  (∀ (u : List Byte) (k b : Nat), k < u.length → b < 8 → crc16 u ≠ crc16 (flipBit u k b)) ∧
  (∀ b : Byte, ∃ c : Half, crcUpdate c b ≠ c) ∧
  crc16 [0x00] = 0xE1F0

/-- 40_crc.md R69: the CRC16 command, its encoding, the messages refused as malformed and its whole effect. -/
def Obligations.Crc16Command : Prop :=
  (∀ (n0 n1 : Byte) (data : List Byte),
    if data.length = n0.toNat + 256 * n1.toNat then decode (0x01 :: n0 :: n1 :: data) = .ok (.crc16 data)
    else RefusedAsMalformed (0x01 :: n0 :: n1 :: data)) ∧
  (∀ fields : List Byte, fields.length < 2 → RefusedAsMalformed (0x01 :: fields)) ∧
  ∀ (data : List Byte) (s : State),
    exec (.crc16 data) s = .next
      { s with
        trace := s.trace ++
          [.response [0x00, (crc16 data).extractLsb' 0 8, (crc16 data).extractLsb' 8 8]] }

/-! ## The framer -/

/-- 30_encoding.md R50: the layout of a wire frame, with the CRC over every byte before it. -/
def Obligations.WireFrameLayout : Prop :=
  ∀ (t : Byte) (p : List Byte), p.length ≤ 255 →
    (wire t p).length = 6 + p.length ∧
    wire t p =
      0x55 :: 0xAA :: BitVec.ofNat 8 p.length :: t :: p ++
        [(crc16 ((wire t p).take (4 + p.length))).extractLsb' 0 8,
         (crc16 ((wire t p).take (4 + p.length))).extractLsb' 8 8]

/-- 41_framer.md R72: the CONSTRUCT command, its encoding, the messages refused as malformed and its whole effect; a
payload over 255 bytes is refused and nothing is built. -/
def Obligations.ConstructCommand : Prop :=
  (∀ (t l0 l1 : Byte) (p : List Byte),
    if p.length = l0.toNat + 256 * l1.toNat then decode (0x02 :: t :: l0 :: l1 :: p) = .ok (.construct t p)
    else RefusedAsMalformed (0x02 :: t :: l0 :: l1 :: p)) ∧
  (∀ fields : List Byte, fields.length < 3 → RefusedAsMalformed (0x02 :: fields)) ∧
  ∀ (t : Byte) (p : List Byte) (s : State),
    exec (.construct t p) s = .next
      { s with
        trace := s.trace ++
          [.response
            (if p.length ≤ 255 then
              0x00 :: BitVec.ofNat 8 (6 + p.length) :: BitVec.ofNat 8 ((6 + p.length) / 256) :: wire t p
             else [0x12])] }

/-- 41_framer.md R73: CONSTRUCT and (40_crc.md R66) CRC16 read no state: in any two states they add the same events.
-/
def Obligations.PureCommandsReadNoState : Prop :=
  ∀ (i : Instr) (s s' t t' : State),
    ((∃ data, i = .crc16 data) ∨ ∃ ty p, i = .construct ty p) →
    exec i s = .next t → exec i s' = .next t' → newEvents s t = newEvents s' t'

/-! ## The deframer -/

/-- 42_deframer.md R74: `firstMarker` is the least marker position, and two marker positions are never adjacent. -/
def Obligations.FirstMarkerIsLeast : Prop :=
  ∀ A : List Byte,
    (∀ i, firstMarker A = some i ↔ IsMarker A i ∧ ∀ j, j < i → ¬ IsMarker A j) ∧
    (firstMarker A = none ↔ ∀ i, ¬ IsMarker A i) ∧
    ∀ i, IsMarker A i → ¬ IsMarker A (i + 1)

/-- 42_deframer.md R75: `parse` is the rule's loop, with no bound on its passes, and what it leaves is a suffix of what
it was given. -/
def Obligations.ParseFollowsItsLoop : Prop :=
  ∀ A : List Byte,
    (parse A).2 <:+ A ∧
    parse A =
      match firstMarker A with
      | none =>
        if 1 ≤ A.length ∧ A.getLast? = some 0x55 then (.incomplete, [0x55]) else (.none, [])
      | some m =>
        let C := A.drop m
        let L := (C.getD 2 0).toNat
        if C.length < 4 then (.incomplete, C)
        else if C.length < 6 + L then (.incomplete, C)
        else if crc16 (C.take (4 + L)) = u16le (C.getD (4 + L) 0) (C.getD (5 + L) 0) then
          (.frame ⟨C.getD 3 0, (C.drop 4).take L⟩, C.drop (6 + L))
        else parse (C.drop 1)

/-- 42_deframer.md R82: the five bounds on the result of `parse`. -/
def Obligations.ParseBounds : Prop :=
  ∀ A : List Byte,
    (parse A).2 <:+ A ∧
    (∀ f, (parse A).1 = .frame f → (parse A).2.length ≤ A.length - 6 ∧ 6 ≤ A.length) ∧
    ((parse A).1 = .incomplete →
      (parse A).2 ≠ [] ∧ (parse A).2.head? = some 0x55 ∧ (parse A).2.length ≤ 260) ∧
    ((parse A).1 = .none → (parse A).2 = []) ∧
    ((∀ f, (parse A).1 ≠ .frame f) → (parse A).2.length ≤ 260)

/-- 42_deframer.md R84: `parse` is decided by the first marker position whose candidate is not corrupt, and a parse
without a frame changes nothing when repeated. -/
def Obligations.ParseDecidedByFirstCandidate : Prop :=
  ∀ A : List Byte,
    (∀ i, DecidesAt A i → IsIncomplete A i → parse A = (.incomplete, A.drop i)) ∧
    (∀ i, DecidesAt A i → IsValid A i →
      parse A =
        (.frame ⟨A.getD (i + 3) 0, (A.drop (i + 4)).take (neededAt A i - 6)⟩, A.drop (i + neededAt A i))) ∧
    ((∀ i, IsMarker A i → IsCorrupt A i) →
      parse A = if 1 ≤ A.length ∧ A.getLast? = some 0x55 then (.incomplete, [0x55]) else (.none, [])) ∧
    ((∀ f, (parse A).1 ≠ .frame f) → parse (parse A).2 = parse A)

/-- 42_deframer.md R85: the PARSE command, its encoding, the messages refused as malformed and its whole effect. -/
def Obligations.ParseCommand : Prop :=
  decode [0x03] = .ok .parse ∧
  (∀ (x : Byte) (fields : List Byte), RefusedAsMalformed (0x03 :: x :: fields)) ∧
  ∀ s : State,
    exec .parse s = .next
      { s with
        acc := (parse s.acc).2
        trace := s.trace ++
          [.response
            (match (parse s.acc).1 with
             | .frame f => 0x01 :: f.type :: BitVec.ofNat 8 f.payload.length :: f.payload
             | .incomplete => [0x02]
             | .none => [0x03])] }

/-- 42_deframer.md R86: the ACC_APPEND command, its encoding, the messages refused as malformed and its whole effect:
all of the data or none of it. -/
def Obligations.AccAppendCommand : Prop :=
  (∀ (n0 n1 : Byte) (data : List Byte),
    if data.length = n0.toNat + 256 * n1.toNat then decode (0x04 :: n0 :: n1 :: data) = .ok (.accAppend data)
    else RefusedAsMalformed (0x04 :: n0 :: n1 :: data)) ∧
  (∀ fields : List Byte, fields.length < 2 → RefusedAsMalformed (0x04 :: fields)) ∧
  (∀ (data : List Byte) (s : State), s.acc.length + data.length ≤ s.params.accCapacity →
    exec (.accAppend data) s = .next
      { s with acc := s.acc ++ data, trace := s.trace ++ [.response [0x00]] }) ∧
  ∀ (data : List Byte) (s : State), s.params.accCapacity < s.acc.length + data.length →
    exec (.accAppend data) s = .next { s with trace := s.trace ++ [.response [0x13]] }

/-- 42_deframer.md R87: the round trip, whatever bytes follow the frame. -/
def Obligations.FramerDeframerRoundTrip : Prop :=
  ∀ (t : Byte) (p R : List Byte), p.length ≤ 255 → parse (wire t p ++ R) = (.frame ⟨t, p⟩, R)

/-- 42_deframer.md R88: a frame fed one byte at a time, PARSE after each: INCOMPLETE for every proper part of it, and
FRAME once the last byte has arrived. -/
def Obligations.PartialDelivery : Prop :=
  ∀ (t : Byte) (p : List Byte) (s : State) (k : Nat),
    p.length ≤ 255 → s.params.InRange → 1 ≤ k → k ≤ (wire t p).length → s.acc = (wire t p).take (k - 1) →
    ∃ s1 s2 : State,
      exec (.accAppend [(wire t p).getD (k - 1) 0]) s = .next s1 ∧
      exec .parse s1 = .next s2 ∧
      newEvents s s1 = [.response [0x00]] ∧
      (k < (wire t p).length → s2.acc = (wire t p).take k ∧ newEvents s1 s2 = [.response [0x02]]) ∧
      (k = (wire t p).length →
        s2.acc = [] ∧ newEvents s1 s2 = [.response (0x01 :: t :: BitVec.ofNat 8 p.length :: p)])

/-- 42_deframer.md R89: garbage whose every candidate is corrupt is discarded in the call that yields the first frame;
garbage with no marker pair is such garbage. Where the first candidate in the garbage that is not corrupt is incomplete,
the first call keeps everything from it on, both frames included; where it is valid, the first call returns it. The
last two clauses are one example of each. -/
def Obligations.Resynchronisation : Prop :=
  (∀ (G : List Byte) (tA : Byte) (pA : List Byte) (tB : Byte) (pB : List Byte),
    pA.length ≤ 255 → pB.length ≤ 255 →
    (∀ i, i < G.length → IsMarker (G ++ wire tA pA) i → IsCorrupt (G ++ wire tA pA) i) →
    parse (G ++ wire tA pA ++ wire tB pB) = (.frame ⟨tA, pA⟩, wire tB pB) ∧
    parse (wire tB pB) = (.frame ⟨tB, pB⟩, []) ∧
    parse [] = (.none, [])) ∧
  (∀ (G : List Byte) (tA : Byte) (pA : List Byte), (∀ i, ¬ IsMarker G i) →
    ∀ i, i < G.length → ¬ IsMarker (G ++ wire tA pA) i) ∧
  (∀ (G : List Byte) (tA : Byte) (pA : List Byte) (tB : Byte) (pB : List Byte) (i : Nat),
    i < G.length → DecidesAt (G ++ wire tA pA ++ wire tB pB) i →
    (IsIncomplete (G ++ wire tA pA ++ wire tB pB) i →
      parse (G ++ wire tA pA ++ wire tB pB) = (.incomplete, G.drop i ++ wire tA pA ++ wire tB pB)) ∧
    (IsValid (G ++ wire tA pA ++ wire tB pB) i →
      ∃ f, parse (G ++ wire tA pA ++ wire tB pB) =
        (.frame f, (G ++ wire tA pA ++ wire tB pB).drop (i + neededAt (G ++ wire tA pA ++ wire tB pB) i)))) ∧
  parse ([0x55, 0xAA, 0xFF, 0x04] ++ wire 0x04 [0x01, 0x02, 0x03] ++ wire 0x05 [])
    = (.incomplete, [0x55, 0xAA, 0xFF, 0x04] ++ wire 0x04 [0x01, 0x02, 0x03] ++ wire 0x05 []) ∧
  parse ([0x55, 0xAA, 0x00, 0x09, 0xCA, 0xA6] ++ wire 0x04 [0x01, 0x02, 0x03] ++ wire 0x05 [])
    = (.frame ⟨0x09, []⟩, wire 0x04 [0x01, 0x02, 0x03] ++ wire 0x05 [])

/-- 42_deframer.md R90: one flipped bit outside LEN is never decoded from its own place; the rule's LEN flip is. -/
def Obligations.SingleBitFlips : Prop :=
  (∀ (t : Byte) (p R : List Byte) (k b : Nat), p.length ≤ 255 → b < 8 → k < 6 + p.length →
    (3 ≤ k → IsCorrupt (flipBit (wire t p) k b ++ R) 0) ∧
    (k ≤ 1 → ¬ IsMarker (flipBit (wire t p) k b ++ R) 0) ∧
    (k ≠ 2 → parse (flipBit (wire t p) k b ++ R) = parse ((flipBit (wire t p) k b ++ R).drop 1))) ∧
  wire 0x11 [0xF5, 0x7C, 0xCE, 0xD4, 0xCC]
    = [0x55, 0xAA, 0x05, 0x11, 0xF5, 0x7C, 0xCE, 0xD4, 0xCC, 0x1C, 0xBF] ∧
  parse (flipBit (wire 0x11 [0xF5, 0x7C, 0xCE, 0xD4, 0xCC]) 2 0)
    = (.frame ⟨0x11, [0xF5, 0x7C, 0xCE, 0xD4]⟩, [0xBF])

/-! ## Transmit -/

/-- The environment's answers: a script is answered in order; past its end a receive answer still keeps the
transport's contract of at most `n` bytes (43_transmit.md R92, R93; that answers are scripted in State is the model's
choice, log 1). -/
def Obligations.EnvironmentAnswers : Prop :=
  (∀ (e : Env) (a : SendAnswer) (rest : List SendAnswer), e.sends = a :: rest →
    e.drawSend = (a, { e with sends := rest })) ∧
  (∀ (e : Env) (n : Nat) (bs : List Byte) (rest : List (List Byte)), e.receives = bs :: rest →
    e.drawReceive n = (bs, { e with receives := rest })) ∧
  (∀ (e : Env) (t : Word) (rest : List Word), e.ticks = t :: rest →
    e.drawTick = (t, { e with ticks := rest })) ∧
  (∀ (e : Env) (done : Bool) (rest : List Bool), e.sleeps = done :: rest →
    e.drawSleepDone = (done, { e with sleeps := rest })) ∧
  ∀ (e : Env) (n : Nat), e.receives = [] → (e.drawReceive n).1.length ≤ n

/-- 43_transmit.md R95: the SEND_FRAME command, its encoding, the messages refused as malformed and its whole effect:
one TxSend, whatever the transport answers, or none for a payload over 255 bytes. -/
def Obligations.SendFrameCommand : Prop :=
  (∀ (t l0 l1 : Byte) (p : List Byte),
    if p.length = l0.toNat + 256 * l1.toNat then decode (0x05 :: t :: l0 :: l1 :: p) = .ok (.sendFrame t p)
    else RefusedAsMalformed (0x05 :: t :: l0 :: l1 :: p)) ∧
  (∀ fields : List Byte, fields.length < 3 → RefusedAsMalformed (0x05 :: fields)) ∧
  (∀ (t : Byte) (p : List Byte) (s : State), 255 < p.length →
    exec (.sendFrame t p) s = .next { s with trace := s.trace ++ [.response [0x12]] }) ∧
  ∀ (t : Byte) (p : List Byte) (s : State), p.length ≤ 255 →
    exec (.sendFrame t p) s = .next
      { s with
        env := s.env.drawSend.2
        trace := s.trace ++
          [.txSend (wire t p) s.env.drawSend.1,
           .response [if s.env.drawSend.1 = .ok then 0x00 else 0x11]] }

/-- 43_transmit.md R96: the SEND_ACK command sends the six bytes `55 AA 00 02 A1 17`. -/
def Obligations.SendAckCommand : Prop :=
  decode [0x06] = .ok .sendAck ∧
  (∀ (x : Byte) (fields : List Byte), RefusedAsMalformed (0x06 :: x :: fields)) ∧
  ∀ s : State,
    exec .sendAck s = .next
      { s with
        env := s.env.drawSend.2
        trace := s.trace ++
          [.txSend [0x55, 0xAA, 0x00, 0x02, 0xA1, 0x17] s.env.drawSend.1,
           .response [if s.env.drawSend.1 = .ok then 0x00 else 0x11]] }

/-- 43_transmit.md R97: the SEND_START_WORD command sends the six bytes `55 AA 00 01 C2 27`. -/
def Obligations.SendStartWordCommand : Prop :=
  decode [0x07] = .ok .sendStartWord ∧
  (∀ (x : Byte) (fields : List Byte), RefusedAsMalformed (0x07 :: x :: fields)) ∧
  ∀ s : State,
    exec .sendStartWord s = .next
      { s with
        env := s.env.drawSend.2
        trace := s.trace ++
          [.txSend [0x55, 0xAA, 0x00, 0x01, 0xC2, 0x27] s.env.drawSend.1,
           .response [if s.env.drawSend.1 = .ok then 0x00 else 0x11]] }

/-! ## The handshake -/

/-- 44_handshake.md R104: the SEND_FRAME_WAIT_ACK command, its encoding, the messages refused as malformed, and the
step that accepts it: refused, failed, or sent with the wait begun. -/
def Obligations.SendFrameWaitAckCommand : Prop :=
  (∀ (flags t t0 t1 t2 t3 l0 l1 : Byte) (p : List Byte),
    if flags.toNat < 2 ∧ p.length = l0.toNat + 256 * l1.toNat then
      decode (0x08 :: flags :: t :: t0 :: t1 :: t2 :: t3 :: l0 :: l1 :: p) =
        .ok (.sendFrameWaitAck (flags == 0x01) t
          (BitVec.ofNat 32 (t0.toNat + 256 * t1.toNat + 65536 * t2.toNat + 16777216 * t3.toNat)) p)
    else RefusedAsMalformed (0x08 :: flags :: t :: t0 :: t1 :: t2 :: t3 :: l0 :: l1 :: p)) ∧
  (∀ fields : List Byte, fields.length < 8 → RefusedAsMalformed (0x08 :: fields)) ∧
  (∀ (d : Bool) (t : Byte) (T : Word) (p : List Byte) (s : State), 255 < p.length →
    exec (.sendFrameWaitAck d t T p) s = .next { s with trace := s.trace ++ [.response [0x12, 0x00]] }) ∧
  (∀ (d : Bool) (t : Byte) (T : Word) (p : List Byte) (s : State), p.length ≤ 255 → s.env.drawSend.1 = .fail →
    exec (.sendFrameWaitAck d t T p) s = .next
      { s with
        env := s.env.drawSend.2
        trace := s.trace ++ [.txSend (wire t p) .fail, .response [0x11, 0x00]] }) ∧
  ∀ (d : Bool) (t : Byte) (T : Word) (p : List Byte) (s : State), p.length ≤ 255 → s.env.drawSend.1 = .ok →
    exec (.sendFrameWaitAck d t T p) s = .next
      { s with
        env := s.env.drawSend.2
        waitTimeout := some (if d then s.ackTimeout else T)
        hs := .sent
        trace := s.trace ++ [.txSend (wire t p) .ok] }

/-- 44_handshake.md R105: the SENT step records the tick, after the send. -/
def Obligations.SentStepRecordsTick : Prop :=
  ∀ s : State, s.env.resetNow = false → s.hs = .sent →
    step s = .next
      { s with
        env := s.passReset.env.drawTick.2
        startTick := some s.passReset.env.drawTick.1
        hs := .wCheck
        trace := s.trace ++ [.nowMs s.passReset.env.drawTick.1] }

/-- 44_handshake.md R106: the W_CHECK step goes on to a drain strictly before the deadline and times out at it. -/
def Obligations.CheckStepTestsDeadline : Prop :=
  ∀ (s : State) (start timeout : Word),
    s.env.resetNow = false → s.hs = .wCheck → s.startTick = some start → s.waitTimeout = some timeout →
    step s = .next
      (if (s.passReset.env.drawTick.1.toNat + 2 ^ 32 - start.toNat) % 2 ^ 32 < timeout.toNat then
        { s with
          env := s.passReset.env.drawTick.2
          hs := .wDrain
          trace := s.trace ++ [.nowMs s.passReset.env.drawTick.1] }
       else
        { s with
          env := s.passReset.env.drawTick.2
          hs := .idle
          trace := s.trace ++ [.nowMs s.passReset.env.drawTick.1, .response [0x10, 0x00]] })

/-- 44_handshake.md R107: the W_DRAIN step appends what one receive request of `min(RX_CHUNK, ACC_CAPACITY - |ACC|)`
bytes answers, and sets GOT. That an answer of more bytes than asked stops, with a fault of the environment, is
93_implementation_defined.md I26 and log 9, not R107. -/
def Obligations.DrainStepAppends : Prop :=
  ∀ (s : State) (n : Nat),
    s.env.resetNow = false → s.hs = .wDrain →
    n = min s.params.rxChunk (s.params.accCapacity - s.acc.length) →
    ((s.passReset.env.drawReceive n).1.length ≤ n →
      step s = .next
        { s with
          env := (s.passReset.env.drawReceive n).2
          acc := s.acc ++ (s.passReset.env.drawReceive n).1
          got := some (decide ((s.passReset.env.drawReceive n).1 ≠ []))
          hs := .wParse
          trace := s.trace ++ [.rxReceive n (s.passReset.env.drawReceive n).1] }) ∧
    (n < (s.passReset.env.drawReceive n).1.length → step s = .fault .receiveOverrun)

/-- 44_handshake.md R108: the W_PARSE step ends the wait on an ACK, discards any other frame and parses again, and
otherwise goes to W_CHECK or W_SLEEP by GOT. -/
def Obligations.ParseStepActsOnType : Prop :=
  ∀ s : State, s.env.resetNow = false → s.hs = .wParse →
    (∀ f, (parse s.acc).1 = .frame f → f.type = 0x02 →
      step s = .next
        { s.passReset with
          acc := (parse s.acc).2, hs := .idle, trace := s.trace ++ [.response [0x04, 0x01]] }) ∧
    (∀ f, (parse s.acc).1 = .frame f → f.type ≠ 0x02 →
      step s = .next { s.passReset with acc := (parse s.acc).2, hs := .wParse }) ∧
    ((∀ f, (parse s.acc).1 ≠ .frame f) → ∀ g, s.got = some g →
      step s = .next { s.passReset with acc := (parse s.acc).2, hs := if g then .wCheck else .wSleep })

/-- 44_handshake.md R109 with R100: the W_SLEEP step asks once for a sleep of POLL_INTERVAL milliseconds, goes to
W_CHECK when the time source completes it, and stays in W_SLEEP until then. -/
def Obligations.SleepStepWaits : Prop :=
  ∀ s : State, s.env.resetNow = false → s.hs = .wSleep →
    step s = .next
      { s with
        env := s.passReset.env.drawSleepDone.2
        sleeping := !s.passReset.env.drawSleepDone.1
        hs := if s.passReset.env.drawSleepDone.1 then .wCheck else .wSleep
        trace := s.trace ++ if s.sleeping then [] else [.sleepMs s.pollInterval] }

/-- 44_handshake.md R102 and R103: elapsed time is unsigned subtraction modulo 2^32, right across the tick's wrap, and
the wait continues strictly below the timeout. -/
def Obligations.ElapsedWrapsAround : Prop :=
  (∀ now start : Word, (elapsed now start).toNat = (now.toNat + 2 ^ 32 - start.toNat) % 2 ^ 32) ∧
  (∀ start d : Word, elapsed (start + d) start = d) ∧
  (∀ now start timeout : Word,
    beforeDeadline now start timeout = true ↔ (elapsed now start).toNat < timeout.toNat) ∧
  elapsed 0x00000004 0xFFFFFFF0 = 20

/-- The edges of the state machine: with no reset, a step leads from a state of HS only to the states the transition
table allows (44_handshake.md R98), with two edges that are not in the table. Staying in W_SLEEP while the sleep is not
complete is R100's "leaves the block in W_SLEEP for ever" read as steps of their own (log 8); staying in IDLE with no
message offered is log 2. -/
def Obligations.HandshakeTransitions : Prop :=
  ∀ s t : State, s.env.resetNow = false → step s = .next t →
    match s.hs with
    | .idle => t.hs = .idle ∨ t.hs = .sent
    | .sent => t.hs = .wCheck
    | .wCheck => t.hs = .wDrain ∨ t.hs = .idle
    | .wDrain => t.hs = .wParse
    | .wParse => t.hs = .idle ∨ t.hs = .wParse ∨ t.hs = .wCheck ∨ t.hs = .wSleep
    | .wSleep => t.hs = .wCheck ∨ t.hs = .wSleep
    | .unused6 => False
    | .unused7 => False

/-- 44_handshake.md R116: with a timeout of 0 the first check after the send times out, whatever the ticks and
whatever ACC holds, and ACC is unchanged. -/
def Obligations.ZeroTimeoutEndsAtOnce : Prop :=
  ∀ s : State, NoReset s → s.hs = .sent → s.waitTimeout = some 0 →
    ∃ (t u : State) (t0 t1 : Word),
      step s = .next t ∧ step t = .next u ∧ u.hs = .idle ∧ u.acc = s.acc ∧
      u.trace = s.trace ++ [.nowMs t0, .nowMs t1, .response [0x10, 0x00]]

/-- No step of a wait hands a frame to the transport (44_handshake.md R113: there is no retry), and none touches ACC
but by an append or a parse. -/
def Obligations.NoResendDuringWait : Prop :=
  ∀ s t : State, s.env.resetNow = false → s.hs ≠ .idle → step s = .next t →
    (∀ bs a, PortEvent.txSend bs a ∉ newEvents s t) ∧
    (t.acc = s.acc ∨ (∃ bs, t.acc = s.acc ++ bs) ∨ t.acc = (parse s.acc).2)

/-- The tick is requested once at SENT, once at W_CHECK, and at no other step (44_handshake.md R99). -/
def Obligations.TickRequestedOnlyWhenSampled : Prop :=
  ∀ s t : State, s.env.resetNow = false → step s = .next t →
    ((newEvents s t).filter fun e => match e with | .nowMs _ => true | _ => false).length
      = if s.hs = .sent ∨ s.hs = .wCheck then 1 else 0

/-- ACKED is emitted only by a W_PARSE step that decoded a frame of type 0x02 (44_handshake.md R111, R115 (c)); its
data byte is 0x01 (R112). -/
def Obligations.AckedOnlyOnDecodedAck : Prop :=
  ∀ (s t : State) (d : List Byte), step s = .next t → PortEvent.response (0x04 :: d) ∈ newEvents s t →
    s.hs = .wParse ∧ d = [0x01] ∧ ∃ f, (parse s.acc).1 = .frame f ∧ f.type = 0x02

/-- 60_exceptions.md R127: TIMED_OUT is emitted only by a W_CHECK step that found elapsed time at or past the timeout,
with data byte 0x00. -/
def Obligations.TimedOutOnlyAtDeadline : Prop :=
  ∀ (s t : State) (d : List Byte), step s = .next t → PortEvent.response (0x10 :: d) ∈ newEvents s t →
    s.hs = .wCheck ∧ d = [0x00] ∧
    ∃ start timeout now, s.startTick = some start ∧ s.waitTimeout = some timeout ∧
      PortEvent.nowMs now ∈ newEvents s t ∧ timeout.toNat ≤ (elapsed now start).toNat

/-- A wait ends only with ACKED, with TIMED_OUT or by reset, and bytes leave ACC only by a parse or by reset
(70_reset_and_hazards.md R150, 44_handshake.md R113). -/
def Obligations.WaitEndsOnlyThreeWays : Prop :=
  (∀ s t : State, s.hs ≠ .idle → step s = .next t → t.hs = .idle →
    s.env.resetNow = true ∨
    (s.hs = .wParse ∧ newEvents s t = [.response [0x04, 0x01]]) ∨
    (s.hs = .wCheck ∧ ∃ now, newEvents s t = [.nowMs now, .response [0x10, 0x00]])) ∧
  ∀ s t : State, step s = .next t →
    s.acc <+: t.acc ∨ t.acc = (parse s.acc).2 ∨ (s.env.resetNow = true ∧ t.acc = [])

/-- Frames of other types in front of an ACK are discarded one a step, the ACK ends the wait whatever its payload, and
every byte behind it stays in ACC (44_handshake.md R110, R111, R113; 70_reset_and_hazards.md R139, R140). -/
def Obligations.AckBehindOtherFramesEndsWait : Prop :=
  ∀ (s : State) (fs : List Frame) (p R : List Byte),
    NoReset s → s.hs = .wParse → (∀ f ∈ fs, f.type ≠ 0x02 ∧ f.payload.length ≤ 255) → p.length ≤ 255 →
    s.acc = wires fs ++ wire 0x02 p ++ R →
    ∃ t : State, run (fs.length + 1) s = .next t ∧ t.hs = .idle ∧ t.acc = R ∧
      newEvents s t = [.response [0x04, 0x01]]

/-- A wait on a silent line (44_handshake.md R114, R115; 95_test_vectors.md W6): with no byte received and no frame
held, the wait sleeps once between checks, and the first sample at the deadline ends it TIMED_OUT. The environment is
one that State scripts, whose sleeps each complete at the first step that asks (log 21), and the count of steps rests on
a sleep that is not complete being a step of its own (log 8). -/
def Obligations.SilentWaitTimesOut : Prop :=
  ∀ (s : State) (start timeout : Word) (k : Nat),
    NoReset s → s.hs = .wCheck → s.sleeping = false →
    s.startTick = some start → s.waitTimeout = some timeout →
    (∀ f, (parse s.acc).1 ≠ .frame f) → ScriptReachesDeadline s start timeout k →
    (∀ j, j < k → ∃ t, s.env.ticks[j]? = some t ∧ beforeDeadline t start timeout = true) →
    k ≤ s.env.receives.length → (∀ bs ∈ s.env.receives, bs = []) →
    ∃ t : State, run (4 * k + 1) s = .next t ∧ t.hs = .idle ∧
      t.trace.getLast? = some (.response [0x10, 0x00]) ∧
      t.acc = (if k = 0 then s.acc else (parse s.acc).2)

/-- Termination (44_handshake.md R114), under TA1, TA2 and TA3: in every infinite run, a SEND_FRAME_WAIT_ACK taken at
step 0 reaches IDLE after finitely many steps, through no IDLE on the way, and the step that reaches it responds ACKED,
TIMED_OUT, TRANSPORT_ERROR or PAYLOAD_TOO_LARGE, or is a reset, which abandons the wait (R98). -/
def Obligations.WaitTerminates : Prop :=
  ∀ (σ : Nat → State) (t0 : Nat) (rt : Nat → Nat) (m : List Byte) (rest : List (List Byte))
    (useDefault : Bool) (type : Byte) (timeout : Word) (payload : List Byte),
    IsRun σ → TA1 t0 rt σ → TA2 rt σ → TA3 rt σ →
    (σ 0).env.resetNow = false → (σ 0).hs = .idle → (σ 0).env.commands = m :: rest →
    decode m = .ok (.sendFrameWaitAck useDefault type timeout payload) →
    ∃ n : Nat, (σ (n + 1)).hs = .idle ∧ (∀ k, 1 ≤ k → k ≤ n → (σ k).hs ≠ .idle) ∧
      ((1 ≤ n ∧ (σ n).env.resetNow = true) ∨
       ∃ r, (newEvents (σ n) (σ (n + 1))).getLast? = some (.response r) ∧
         (r = [0x04, 0x01] ∨ r = [0x10, 0x00] ∨ r = [0x11, 0x00] ∨ r = [0x12, 0x00]))

/-- Under TA1 and TA3 (44_handshake.md R101), in every infinite run, the elapsed time computed at each W_CHECK of a
wait, up to and including the first at or past the deadline, is real time since the wait's SENT sample: step `i` is
that sample, step `j` the check, and the wait has not ended between them. -/
def Obligations.ElapsedReadsRealTime : Prop :=
  ∀ (σ : Nat → State) (t0 : Nat) (rt : Nat → Nat) (i j : Nat),
    IsRun σ → TA1 t0 rt σ → TA3 rt σ →
    (σ i).Samples → (σ i).hs = .sent → i < j → (σ j).Samples → (σ j).hs = .wCheck →
    (∀ k, i < k → k < j → (σ k).hs ≠ .idle) →
    ∃ start, (σ j).startTick = some start ∧ (elapsed (σ j).sample start).toNat = rt j - rt i

/-- The timeout's lower bound (44_handshake.md R115 (a)): where ticks read real time, a W_CHECK step that ends the
wait does so at least WAIT_TIMEOUT milliseconds of real time after the start sample. -/
def Obligations.TimeoutLowerBound : Prop :=
  ∀ (s t : State) (t0 rt0 rt1 : Nat) (timeout : Word),
    s.env.resetNow = false → s.hs = .wCheck → s.startTick = some (BitVec.ofNat 32 (t0 + rt0)) →
    s.waitTimeout = some timeout → rt0 ≤ rt1 →
    s.passReset.env.drawTick.1 = BitVec.ofNat 32 (t0 + rt1) → step s = .next t → t.hs = .idle →
    timeout.toNat ≤ rt1 - rt0

/-- After a parse that gave no frame the next drain asks for at least one byte (70_reset_and_hazards.md R146). -/
def Obligations.ParseLeavesRoomToDrain : Prop :=
  ∀ s t : State, s.Inv → s.env.resetNow = false → s.hs = .wParse → step s = .next t →
    t.hs = .wCheck ∨ t.hs = .wSleep → 1 ≤ drainSize t

/-! ## Configuration -/

/-- 45_config.md R118: the CFG_READ command, its encoding, the messages refused as malformed and its whole effect on
every register number. -/
def Obligations.CfgReadCommand : Prop :=
  (∀ r : Byte, decode [0x09, r] = .ok (.cfgRead r)) ∧
  (∀ fields : List Byte, fields.length ≠ 1 → RefusedAsMalformed (0x09 :: fields)) ∧
  ∀ (r : Byte) (s : State),
    exec (.cfgRead r) s = .next
      { s with
        trace := s.trace ++
          [.response
            (match r.toNat with
             | 0 => 0x00 :: le32 s.ackTimeout
             | 1 => 0x00 :: le32 s.pollInterval
             | 2 => [0x00, 0xFF, 0x00, 0x00, 0x00]
             | 3 => 0x00 :: le32 (BitVec.ofNat 32 s.acc.length)
             | _ => [0x15])] }

/-- 45_config.md R119: the CFG_WRITE command, its encoding, the messages refused as malformed and its whole effect on
every register number. -/
def Obligations.CfgWriteCommand : Prop :=
  (∀ r v0 v1 v2 v3 : Byte,
    decode [0x0A, r, v0, v1, v2, v3] =
      .ok (.cfgWrite r
        (BitVec.ofNat 32 (v0.toNat + 256 * v1.toNat + 65536 * v2.toNat + 16777216 * v3.toNat)))) ∧
  (∀ fields : List Byte, fields.length ≠ 5 → RefusedAsMalformed (0x0A :: fields)) ∧
  ∀ (r : Byte) (v : Word) (s : State),
    exec (.cfgWrite r v) s = .next
      (match r.toNat with
       | 0 => { s with ackTimeout := v, trace := s.trace ++ [.response [0x00]] }
       | 1 => { s with pollInterval := v, trace := s.trace ++ [.response [0x00]] }
       | _ => { s with trace := s.trace ++ [.response [0x15]] })

/-- While a wait is in progress no step changes ACK_TIMEOUT, POLL_INTERVAL or WAIT_TIMEOUT (10_state.md R20, R25;
45_config.md R119). -/
def Obligations.WaitKeepsConfiguration : Prop :=
  ∀ s t : State, s.env.resetNow = false → s.hs ≠ .idle → step s = .next t →
    t.ackTimeout = s.ackTimeout ∧ t.pollInterval = s.pollInterval ∧ t.waitTimeout = s.waitTimeout

/-! ## Errors and responses -/

/-- 30_encoding.md R60: every response a step emits begins with one of the status codes of the table. -/
def Obligations.OnlyDefinedStatusCodes : Prop :=
  ∀ (s t : State) (m : List Byte), step s = .next t → PortEvent.response m ∈ newEvents s t →
    ∃ c d, m = c :: d ∧ (c.toNat ≤ 0x04 ∨ (0x10 ≤ c.toNat ∧ c.toNat ≤ 0x16))

/-- A command refused with PAYLOAD_TOO_LARGE, ACC_OVERFLOW, ILLEGAL_CMD, BAD_REG or MALFORMED_CMD leaves every piece
of state as it was and makes no transport or time request (60_exceptions.md R130). -/
def Obligations.RefusedCommandsChangeNothing : Prop :=
  ∀ (i : Instr) (s t : State) (c : Byte) (d : List Byte), exec i s = .next t →
    PortEvent.response (c :: d) ∈ newEvents s t → 0x12 ≤ c.toNat → c.toNat ≤ 0x16 →
    t = { s with trace := s.trace ++ [.response (c :: d)] }

/-! ## Reset -/

/-- 10_state.md R34: what reset leaves in every piece of state, and what the configuration registers then read. -/
def Obligations.ResetValues : Prop :=
  State.reset.acc = [] ∧ State.reset.hs = .idle ∧ State.reset.hs.code = 0 ∧
  State.reset.startTick = none ∧ State.reset.waitTimeout = none ∧ State.reset.got = none ∧
  cfgRead 0x00 State.reset = some 200 ∧ cfgRead 0x01 State.reset = some 10 ∧
  cfgRead 0x02 State.reset = some 255 ∧ cfgRead 0x03 State.reset = some 0 ∧
  State.reset.portReady = true ∧ ∀ m, PortEvent.response m ∉ State.reset.trace

/-- Reset in any state at all (70_reset_and_hazards.md R135, R136; 10_state.md R33): the reset action and nothing else, no
response, no transport or time request, a wait in progress abandoned, and what the transport, the time source and the
host have in store left alone. That the sleep request is forgotten is log 8, that the parameters stay and reset is
recorded is log 16. -/
def Obligations.ResetFromAnyState : Prop :=
  ∀ s : State, s.env.resetNow = true →
    ∃ t : State, step s = .next t ∧
      t.acc = [] ∧ t.hs = .idle ∧ t.portReady = true ∧ t.ackTimeout = 200 ∧ t.pollInterval = 10 ∧
      t.startTick = none ∧ t.waitTimeout = none ∧ t.got = none ∧ t.sleeping = false ∧
      t.params = s.params ∧ t.env = s.passReset.env ∧ newEvents s t = [.reset]

/-- 70_reset_and_hazards.md R137: the first command runs with the reset values, and every command is legal at once. -/
def Obligations.FirstCommandAfterReset : Prop :=
  (∃ t, exec (.cfgRead 0x03) State.reset = .next t ∧ t.trace = [.response [0x00, 0x00, 0x00, 0x00, 0x00]]) ∧
  (∃ t, exec (.cfgRead 0x01) State.reset = .next t ∧ t.trace = [.response [0x00, 0x0A, 0x00, 0x00, 0x00]]) ∧
  (∃ t, exec .parse State.reset = .next t ∧ t.trace = [.response [0x03]]) ∧
  ∀ i : Instr, ∃ t, exec i State.reset = .next t

/-! ## Invariants of the machine -/

/-- The state after reset meets the invariant, and its record of the ports is in order. -/
def Obligations.ResetMeetsInvariant : Prop :=
  State.reset.Inv ∧ State.reset.PortsInOrder

/-- Every step keeps the invariant: the capacity of ACC (20_memory.md R36), HS in a named state (10_state.md R18),
each register written before a wait reads it (00_scope.md R16), a sleep outstanding only in W_SLEEP. -/
def Obligations.StepKeepsInvariant : Prop :=
  ∀ s t : State, s.Inv → step s = .next t → t.Inv

/-- From every state that meets the invariant a step goes on, as long as the transport keeps its contract at a drain:
no register is read without a value (00_scope.md R16) and HS is never in code 6 or 7 (10_state.md R18). -/
def Obligations.InvariantStatesStep : Prop :=
  ∀ s : State, s.Inv → (s.hs = .wDrain → ReceiveInContract s) → ∃ t, step s = .next t

/-- Every step keeps the order of events at the ports: a command is taken only when none is in progress, each has
exactly one response unless reset abandons it, and no request is made outside a command (10_state.md R29, R30). -/
def Obligations.StepKeepsPortsInOrder : Prop :=
  ∀ s t : State, s.PortsInOrder → step s = .next t → t.PortsInOrder
end

