-- ==== Sys2Proof/Laws/Crc.lean ====
section
/-! SUPPORT. The algebra of the CRC kernel (40_crc.md R65): each round is linear and injective, so a byte update is
injective in the running CRC and in the byte. -/

namespace Sys2Proof.Machine

/-- Bit `k` of one round. -/
theorem crcRound_bit (c : Half) (k : Nat) (hk : k < 16) :
    (crcRound c).getLsbD k = ((decide (0 < k) && c.getLsbD (k - 1)) ^^ (c.getLsbD 15 && crcPoly.getLsbD k)) := by
  unfold crcRound
  cases h : c.getLsbD 15 <;> simp [hk, Nat.pos_iff_ne_zero, -BitVec.getLsbD_eq_getElem]

theorem crcRound_xor (c d : Half) : crcRound (c ^^^ d) = crcRound c ^^^ crcRound d := by
  apply BitVec.eq_of_getLsbD_eq
  intro k hk
  rw [BitVec.getLsbD_xor, crcRound_bit _ _ hk, crcRound_bit _ _ hk, crcRound_bit _ _ hk]
  simp only [BitVec.getLsbD_xor]
  cases c.getLsbD 15 <;> cases d.getLsbD 15 <;> cases c.getLsbD (k-1) <;> cases d.getLsbD (k-1) <;> cases crcPoly.getLsbD k <;> simp

theorem crcRounds_xor (k : Nat) (c d : Half) : crcRounds k (c ^^^ d) = crcRounds k c ^^^ crcRounds k d := by
  induction k generalizing c d with
  | zero => rfl
  | succ k ih => simp [crcRounds, crcRound_xor, ih]

theorem crcRound_eq_zero {c : Half} (h : crcRound c = 0) : c = 0 := by
  have hb : ∀ k, k < 16 → (crcRound c).getLsbD k = false := by intro k _; rw [h]; simp
  have h0 := hb 0 (by omega)
  rw [crcRound_bit _ _ (by omega)] at h0
  have hc : c.getLsbD 15 = false := by simpa [crcPoly] using h0
  apply BitVec.eq_of_getLsbD_eq
  intro k hk
  by_cases hk15 : k = 15
  · subst hk15; simpa using hc
  · have := hb (k+1) (by omega)
    rw [crcRound_bit _ _ (by omega)] at this
    rw [hc] at this
    simpa using this

theorem crcRounds_eq_zero {k : Nat} {c : Half} (h : crcRounds k c = 0) : c = 0 := by
  induction k generalizing c with
  | zero => exact h
  | succ k ih => exact crcRound_eq_zero (ih h)

theorem crcRounds_injective {k : Nat} {c d : Half} (h : crcRounds k c = crcRounds k d) : c = d := by
  have : crcRounds k (c ^^^ d) = 0 := by rw [crcRounds_xor, h, BitVec.xor_self]; rfl
  exact BitVec.xor_eq_zero_iff.mp (crcRounds_eq_zero this)

/-- One byte update is injective in the running CRC. -/
theorem crcUpdate_injective {c d : Half} {b : Byte} (h : crcUpdate c b = crcUpdate d b) : c = d :=
  by simpa using crcRounds_injective h

/-- One byte update is injective in the byte. -/
theorem crcUpdate_byte_injective {c : Half} {a b : Byte} (h : crcUpdate c a = crcUpdate c b) : a = b := by
  have h1 : a.setWidth 16 <<< 8 = b.setWidth 16 <<< 8 := by simpa using crcRounds_injective (k := 8) h
  apply BitVec.eq_of_getLsbD_eq
  intro k hk
  have := congrArg (fun v => v.getLsbD (k + 8)) h1
  simpa [hk, show k < 16 by omega, show k + 8 < 16 by omega] using this

theorem crcFold_injective {c d : Half} (bs : List Byte) (h : bs.foldl crcUpdate c = bs.foldl crcUpdate d) : c = d := by
  induction bs generalizing c d with
  | nil => exact h
  | cons b bs ih => exact crcUpdate_injective (ih h)
end Sys2Proof.Machine
end

