-- ==== Sys2Proof/Laws/Decode.lean ====
section
/-! SUPPORT. Small lemmas about the byte order (20_memory.md R39, R40) and the decoder's parts. -/

namespace Sys2Proof

@[simp] theorem le16_length (v : Half) : (le16 v).length = 2 := rfl

@[simp] theorem le32_length (v : Word) : (le32 v).length = 4 := rfl

@[simp] theorem length16_length (bs : List Byte) : (length16 bs).length = 2 := rfl

/-- `u16le` as a number. -/
theorem u16le_toNat (b0 b1 : Byte) : (u16le b0 b1).toNat = b0.toNat + 256 * b1.toNat := by
  have h0 := b0.isLt
  have h1 := b1.isLt
  simp only [u16le, BitVec.toNat_or, BitVec.toNat_shiftLeft, BitVec.toNat_setWidth, Nat.shiftLeft_eq]
  rw [Nat.mod_eq_of_lt (by omega : b0.toNat < 2 ^ 16), Nat.mod_eq_of_lt (by omega : b1.toNat < 2 ^ 16),
    Nat.mod_eq_of_lt (by omega : b1.toNat * 2 ^ 8 < 2 ^ 16), Nat.or_comm, Nat.mul_comm, ← Nat.two_pow_add_eq_or_of_lt h0]
  omega

theorem u16le_le16 (v : Half) : u16le (v.extractLsb' 0 8) (v.extractLsb' 8 8) = v := by
  apply BitVec.eq_of_toNat_eq
  rw [u16le_toNat]
  simp only [BitVec.extractLsb'_toNat, Nat.shiftRight_eq_div_pow]
  have := v.isLt
  omega

theorem le16_u16le (b0 b1 : Byte) : le16 (u16le b0 b1) = [b0, b1] := by
  have h0 := b0.isLt
  have h1 := b1.isLt
  simp only [le16, List.cons.injEq, and_true]
  constructor <;> apply BitVec.eq_of_toNat_eq <;>
    simp only [BitVec.extractLsb'_toNat, Nat.shiftRight_eq_div_pow, u16le_toNat] <;> omega

/-- `u32le` as a number. -/
theorem u32le_toNat (b0 b1 b2 b3 : Byte) :
    (u32le b0 b1 b2 b3).toNat = b0.toNat + 256 * b1.toNat + 65536 * b2.toNat + 16777216 * b3.toNat := by
  have h0 := b0.isLt
  have h1 := b1.isLt
  have h2 := b2.isLt
  have h3 := b3.isLt
  simp only [u32le, BitVec.toNat_or, BitVec.toNat_shiftLeft, BitVec.toNat_setWidth, Nat.shiftLeft_eq]
  rw [Nat.mod_eq_of_lt (by omega : b0.toNat < 2 ^ 32), Nat.mod_eq_of_lt (by omega : b1.toNat < 2 ^ 32),
    Nat.mod_eq_of_lt (by omega : b2.toNat < 2 ^ 32), Nat.mod_eq_of_lt (by omega : b3.toNat < 2 ^ 32),
    Nat.mod_eq_of_lt (by omega : b1.toNat * 2 ^ 8 < 2 ^ 32), Nat.mod_eq_of_lt (by omega : b2.toNat * 2 ^ 16 < 2 ^ 32),
    Nat.mod_eq_of_lt (by omega : b3.toNat * 2 ^ 24 < 2 ^ 32)]
  rw [Nat.or_comm b0.toNat, Nat.mul_comm b1.toNat, ← Nat.two_pow_add_eq_or_of_lt h0]
  rw [Nat.or_comm _ (b2.toNat * 2^16), Nat.mul_comm b2.toNat, ← Nat.two_pow_add_eq_or_of_lt (by omega)]
  rw [Nat.or_comm _ (b3.toNat * 2^24), Nat.mul_comm b3.toNat, ← Nat.two_pow_add_eq_or_of_lt (by omega)]
  omega

theorem u32le_le32 (v : Word) :
    u32le (v.extractLsb' 0 8) (v.extractLsb' 8 8) (v.extractLsb' 16 8) (v.extractLsb' 24 8) = v := by
  apply BitVec.eq_of_toNat_eq
  rw [u32le_toNat]
  simp only [BitVec.extractLsb'_toNat, Nat.shiftRight_eq_div_pow]
  have := v.isLt
  omega

theorem le32_u32le (b0 b1 b2 b3 : Byte) : le32 (u32le b0 b1 b2 b3) = [b0, b1, b2, b3] := by
  have h0 := b0.isLt
  have h1 := b1.isLt
  have h2 := b2.isLt
  have h3 := b3.isLt
  simp only [le32, List.cons.injEq, and_true]
  refine ⟨?_, ?_, ?_, ?_⟩ <;> apply BitVec.eq_of_toNat_eq <;>
    simp only [BitVec.extractLsb'_toNat, Nat.shiftRight_eq_div_pow, u32le_toNat] <;> omega

/-- A body whose length is the stated one is accepted. -/
theorem exactBody_of_eq {n : Half} {body : List Byte} (i : Instr) (h : body.length = n.toNat) :
    exactBody n body i = .ok i := if_pos h

/-- A body of another length is rejected. -/
theorem exactBody_of_ne {n : Half} {body : List Byte} (i : Instr) (h : body.length ≠ n.toNat) :
    exactBody n body i = .rejected .wrongLength := if_neg h

/-- An accepted body has the stated length and gives the instruction it was built for. -/
theorem exactBody_eq_ok {n : Half} {body : List Byte} {i j : Instr} (h : exactBody n body i = .ok j) :
    body.length = n.toNat ∧ i = j := by
  unfold exactBody at h
  split at h
  · exact ⟨‹_›, Decoded.ok.inj h⟩
  · cases h

/-- The length field of a data field that fits it states its length. -/
theorem length16_states {bs : List Byte} (h : fitsLengthField bs = true) :
    ∃ n0 n1, length16 bs = [n0, n1] ∧ bs.length = (u16le n0 n1).toNat := by
  refine ⟨_, _, rfl, ?_⟩
  have hle : bs.length ≤ 65535 := by simpa [fitsLengthField] using h
  rw [u16le_le16, BitVec.toNat_ofNat, Nat.mod_eq_of_lt (by omega)]

/-- A data field of the length two bytes state has those two bytes as its length field. -/
theorem length16_of_states {bs : List Byte} {n0 n1 : Byte} (h : bs.length = (u16le n0 n1).toNat) :
    length16 bs = [n0, n1] := by
  rw [length16, h, BitVec.ofNat_toNat, BitVec.setWidth_eq, le16_u16le]

/-- A length two bytes state fits a length field. -/
theorem fitsLengthField_of_states {bs : List Byte} {n : Half} (h : bs.length = n.toNat) :
    fitsLengthField bs = true := by
  have := n.isLt
  simp [fitsLengthField, h]
  omega

end Sys2Proof
end

