-- ==== Sys2Proof/Laws/Deframer.lean ====
section
/-! SUPPORT. The deframer (42_deframer.md R74 to R83): markers by position, the bound on the loop's passes, and what
`parse` leaves in the accumulator. -/

namespace Sys2Proof.Machine

/-- A sequence starts with the marker exactly when position 0 is a marker position. -/
theorem startsWithMarker_iff (A : List Byte) : startsWithMarker A = true ↔ IsMarker A 0 := by
  match A with
  | [] => simp [startsWithMarker, IsMarker]
  | [_] => simp [startsWithMarker, IsMarker]
  | _ :: _ :: _ => simp [startsWithMarker, IsMarker, mark0, mark1]

theorem isMarker_succ (a : Byte) (A : List Byte) (i : Nat) : IsMarker (a :: A) (i + 1) ↔ IsMarker A i := by
  simp [IsMarker]

/-- The position `firstMarker` gives is a marker position. -/
theorem isMarker_of_firstMarker {A : List Byte} {m : Nat} (h : firstMarker A = some m) : IsMarker A m := by
  induction A generalizing m with
  | nil => simp [firstMarker] at h
  | cons a A ih =>
    unfold firstMarker at h
    split at h
    · rename_i hs
      cases h
      exact (startsWithMarker_iff _).mp hs
    · obtain ⟨k, hk, rfl⟩ := Option.map_eq_some_iff.mp h
      exact (isMarker_succ a A k).mpr (ih hk)

theorem firstMarker_lt {A : List Byte} {m : Nat} (h : firstMarker A = some m) : m + 1 < A.length :=
  (isMarker_of_firstMarker h).1

/-- More passes than bytes change nothing (R83: the loop ends after at most `|A| + 1` passes). -/
theorem parseLoop_enough (A : List Byte) (k l : Nat) (hk : A.length < k) (hl : A.length < l) :
    parseLoop k A = parseLoop l A := by
  induction k generalizing A l with
  | zero => omega
  | succ k ih =>
    cases l with
    | zero => omega
    | succ l =>
      unfold parseLoop
      cases h : firstMarker A with
      | none => rfl
      | some m =>
        have hm := firstMarker_lt h
        have hd : ((A.drop m).drop 1).length < A.length := by simp; omega
        simp only
        rw [ih _ l (by omega) (by omega)]

/-- Every pass of the loop leaves a suffix of what it was given. -/
theorem parseLoop_suffix (k : Nat) (A : List Byte) : (parseLoop k A).2 <:+ A := by
  induction k generalizing A with
  | zero => exact List.suffix_refl A
  | succ k ih =>
    unfold parseLoop
    cases h : firstMarker A with
    | none =>
      by_cases hl : A.getLast? = some mark0
      · obtain ⟨ys, rfl⟩ := List.getLast?_eq_some_iff.mp hl
        simp only [hl, if_true]
        exact ⟨ys, rfl⟩
      · simp [hl]
    | some m =>
      have hm : A.drop m <:+ A := List.drop_suffix m A
      simp only
      split
      · exact hm
      · split
        · exact hm
        · split
          · exact (List.drop_suffix _ _).trans hm
          · exact (ih _).trans ((List.drop_suffix _ _).trans hm)

/-- The rest of a parse is a suffix of the buffer, so one `AccDropFront` realises it. -/
theorem parse_suffix (A : List Byte) : (parse A).2 <:+ A :=
  parseLoop_suffix _ A

/-- A pass that ends with a frame has consumed at least one byte. -/
theorem parseLoop_frame_shorter (k : Nat) (A : List Byte) (f : Frame) (h : (parseLoop k A).1 = .frame f) :
    (parseLoop k A).2.length < A.length := by
  induction k generalizing A with
  | zero => cases h
  | succ k ih =>
    unfold parseLoop at h ⊢
    cases hf : firstMarker A with
    | none =>
      simp only [hf] at h
      split at h <;> cases h
    | some m =>
      have hm := firstMarker_lt hf
      simp only [hf] at h ⊢
      split_ifs at h ⊢
      · simp only [List.length_drop]
        omega
      · have := ih _ h
        simp only [List.length_drop] at this
        omega

/-- A parse that gives a frame shortens the buffer (42_deframer.md R82 fact 2, in its weaker form). -/
theorem parse_frame_shorter {A : List Byte} {f : Frame} (h : (parse A).1 = .frame f) :
    (parse A).2.length < A.length :=
  parseLoop_frame_shorter _ A f h

/-- Dropping all but as many bytes as a suffix has leaves that suffix. -/
theorem drop_to_suffix {A B : List Byte} (h : B <:+ A) : A.drop (A.length - B.length) = B := by
  obtain ⟨front, rfl⟩ := h
  simp

/-- Dropping the consumed bytes leaves the rest of the parse in ACC, and changes nothing else (R85). -/
theorem dropParsed_eq (s : State) : dropParsed s = { s with acc := (parse s.acc).2 } := by
  simp [dropParsed, accDropFront, drop_to_suffix (parse_suffix s.acc)]

end Sys2Proof.Machine
end

