-- ==== Sys2Proof/Laws/State.lean ====
section
/-! SUPPORT. One lemma per field per update of State, each true by rfl, so that no later proof unfolds an update. -/

namespace Sys2Proof.Machine

/-! ## `State.record` -/

@[simp] theorem State.record_acc (e : PortEvent) (s : State) : (s.record e).acc = s.acc := rfl
@[simp] theorem State.record_hs (e : PortEvent) (s : State) : (s.record e).hs = s.hs := rfl
@[simp] theorem State.record_startTick (e : PortEvent) (s : State) : (s.record e).startTick = s.startTick := rfl
@[simp] theorem State.record_waitTimeout (e : PortEvent) (s : State) : (s.record e).waitTimeout = s.waitTimeout := rfl
@[simp] theorem State.record_got (e : PortEvent) (s : State) : (s.record e).got = s.got := rfl
@[simp] theorem State.record_ackTimeout (e : PortEvent) (s : State) : (s.record e).ackTimeout = s.ackTimeout := rfl
@[simp] theorem State.record_pollInterval (e : PortEvent) (s : State) : (s.record e).pollInterval = s.pollInterval := rfl
@[simp] theorem State.record_sleeping (e : PortEvent) (s : State) : (s.record e).sleeping = s.sleeping := rfl
@[simp] theorem State.record_params (e : PortEvent) (s : State) : (s.record e).params = s.params := rfl
@[simp] theorem State.record_trace (e : PortEvent) (s : State) : (s.record e).trace = s.trace ++ [e] := rfl
@[simp] theorem State.record_env (e : PortEvent) (s : State) : (s.record e).env = s.env := rfl

/-! ## `respond` -/

@[simp] theorem respond_acc (st : Status) (data : List Byte) (s : State) : (respond st data s).acc = s.acc := rfl
@[simp] theorem respond_hs (st : Status) (data : List Byte) (s : State) : (respond st data s).hs = s.hs := rfl
@[simp] theorem respond_startTick (st : Status) (data : List Byte) (s : State) : (respond st data s).startTick = s.startTick := rfl
@[simp] theorem respond_waitTimeout (st : Status) (data : List Byte) (s : State) : (respond st data s).waitTimeout = s.waitTimeout := rfl
@[simp] theorem respond_got (st : Status) (data : List Byte) (s : State) : (respond st data s).got = s.got := rfl
@[simp] theorem respond_ackTimeout (st : Status) (data : List Byte) (s : State) : (respond st data s).ackTimeout = s.ackTimeout := rfl
@[simp] theorem respond_pollInterval (st : Status) (data : List Byte) (s : State) : (respond st data s).pollInterval = s.pollInterval := rfl
@[simp] theorem respond_sleeping (st : Status) (data : List Byte) (s : State) : (respond st data s).sleeping = s.sleeping := rfl
@[simp] theorem respond_params (st : Status) (data : List Byte) (s : State) : (respond st data s).params = s.params := rfl
@[simp] theorem respond_trace (st : Status) (data : List Byte) (s : State) : (respond st data s).trace = s.trace ++ [.response (st.code :: data)] := rfl
@[simp] theorem respond_env (st : Status) (data : List Byte) (s : State) : (respond st data s).env = s.env := rfl

/-! ## `accAppend` -/

@[simp] theorem accAppend_acc (bs : List Byte) (s : State) : (accAppend bs s).acc = s.acc ++ bs := rfl
@[simp] theorem accAppend_hs (bs : List Byte) (s : State) : (accAppend bs s).hs = s.hs := rfl
@[simp] theorem accAppend_startTick (bs : List Byte) (s : State) : (accAppend bs s).startTick = s.startTick := rfl
@[simp] theorem accAppend_waitTimeout (bs : List Byte) (s : State) : (accAppend bs s).waitTimeout = s.waitTimeout := rfl
@[simp] theorem accAppend_got (bs : List Byte) (s : State) : (accAppend bs s).got = s.got := rfl
@[simp] theorem accAppend_ackTimeout (bs : List Byte) (s : State) : (accAppend bs s).ackTimeout = s.ackTimeout := rfl
@[simp] theorem accAppend_pollInterval (bs : List Byte) (s : State) : (accAppend bs s).pollInterval = s.pollInterval := rfl
@[simp] theorem accAppend_sleeping (bs : List Byte) (s : State) : (accAppend bs s).sleeping = s.sleeping := rfl
@[simp] theorem accAppend_params (bs : List Byte) (s : State) : (accAppend bs s).params = s.params := rfl
@[simp] theorem accAppend_trace (bs : List Byte) (s : State) : (accAppend bs s).trace = s.trace := rfl
@[simp] theorem accAppend_env (bs : List Byte) (s : State) : (accAppend bs s).env = s.env := rfl

/-! ## `accDropFront` -/

@[simp] theorem accDropFront_acc (k : Nat) (s : State) : (accDropFront k s).acc = s.acc.drop k := rfl
@[simp] theorem accDropFront_hs (k : Nat) (s : State) : (accDropFront k s).hs = s.hs := rfl
@[simp] theorem accDropFront_startTick (k : Nat) (s : State) : (accDropFront k s).startTick = s.startTick := rfl
@[simp] theorem accDropFront_waitTimeout (k : Nat) (s : State) : (accDropFront k s).waitTimeout = s.waitTimeout := rfl
@[simp] theorem accDropFront_got (k : Nat) (s : State) : (accDropFront k s).got = s.got := rfl
@[simp] theorem accDropFront_ackTimeout (k : Nat) (s : State) : (accDropFront k s).ackTimeout = s.ackTimeout := rfl
@[simp] theorem accDropFront_pollInterval (k : Nat) (s : State) : (accDropFront k s).pollInterval = s.pollInterval := rfl
@[simp] theorem accDropFront_sleeping (k : Nat) (s : State) : (accDropFront k s).sleeping = s.sleeping := rfl
@[simp] theorem accDropFront_params (k : Nat) (s : State) : (accDropFront k s).params = s.params := rfl
@[simp] theorem accDropFront_trace (k : Nat) (s : State) : (accDropFront k s).trace = s.trace := rfl
@[simp] theorem accDropFront_env (k : Nat) (s : State) : (accDropFront k s).env = s.env := rfl

/-! ## `State.passReset` -/

@[simp] theorem State.passReset_acc (s : State) : (s.passReset).acc = s.acc := rfl
@[simp] theorem State.passReset_hs (s : State) : (s.passReset).hs = s.hs := rfl
@[simp] theorem State.passReset_startTick (s : State) : (s.passReset).startTick = s.startTick := rfl
@[simp] theorem State.passReset_waitTimeout (s : State) : (s.passReset).waitTimeout = s.waitTimeout := rfl
@[simp] theorem State.passReset_got (s : State) : (s.passReset).got = s.got := rfl
@[simp] theorem State.passReset_ackTimeout (s : State) : (s.passReset).ackTimeout = s.ackTimeout := rfl
@[simp] theorem State.passReset_pollInterval (s : State) : (s.passReset).pollInterval = s.pollInterval := rfl
@[simp] theorem State.passReset_sleeping (s : State) : (s.passReset).sleeping = s.sleeping := rfl
@[simp] theorem State.passReset_params (s : State) : (s.passReset).params = s.params := rfl
@[simp] theorem State.passReset_trace (s : State) : (s.passReset).trace = s.trace := rfl
@[simp] theorem State.passReset_env (s : State) : (s.passReset).env = { s.env with resets := s.env.resets.tail } := rfl

/-! ## `State.placeMessage` -/

@[simp] theorem State.placeMessage_acc (m : List Byte) (s : State) : (s.placeMessage m).acc = s.acc := rfl
@[simp] theorem State.placeMessage_hs (m : List Byte) (s : State) : (s.placeMessage m).hs = .idle := rfl
@[simp] theorem State.placeMessage_startTick (m : List Byte) (s : State) : (s.placeMessage m).startTick = s.startTick := rfl
@[simp] theorem State.placeMessage_waitTimeout (m : List Byte) (s : State) : (s.placeMessage m).waitTimeout = s.waitTimeout := rfl
@[simp] theorem State.placeMessage_got (m : List Byte) (s : State) : (s.placeMessage m).got = s.got := rfl
@[simp] theorem State.placeMessage_ackTimeout (m : List Byte) (s : State) : (s.placeMessage m).ackTimeout = s.ackTimeout := rfl
@[simp] theorem State.placeMessage_pollInterval (m : List Byte) (s : State) : (s.placeMessage m).pollInterval = s.pollInterval := rfl
@[simp] theorem State.placeMessage_sleeping (m : List Byte) (s : State) : (s.placeMessage m).sleeping = s.sleeping := rfl
@[simp] theorem State.placeMessage_params (m : List Byte) (s : State) : (s.placeMessage m).params = s.params := rfl
@[simp] theorem State.placeMessage_trace (m : List Byte) (s : State) : (s.placeMessage m).trace = s.trace := rfl
@[simp] theorem State.placeMessage_env (m : List Byte) (s : State) : (s.placeMessage m).env = { s.env with commands := m :: s.env.commands, resets := s.env.resets.set 0 false } := rfl

/-! ## `resetAction` -/

@[simp] theorem resetAction_acc (s : State) : (resetAction s).acc = [] := rfl
@[simp] theorem resetAction_hs (s : State) : (resetAction s).hs = .idle := rfl
@[simp] theorem resetAction_startTick (s : State) : (resetAction s).startTick = none := rfl
@[simp] theorem resetAction_waitTimeout (s : State) : (resetAction s).waitTimeout = none := rfl
@[simp] theorem resetAction_got (s : State) : (resetAction s).got = none := rfl
@[simp] theorem resetAction_ackTimeout (s : State) : (resetAction s).ackTimeout = 200 := rfl
@[simp] theorem resetAction_pollInterval (s : State) : (resetAction s).pollInterval = 10 := rfl
@[simp] theorem resetAction_sleeping (s : State) : (resetAction s).sleeping = false := rfl
@[simp] theorem resetAction_params (s : State) : (resetAction s).params = s.params := rfl
@[simp] theorem resetAction_trace (s : State) : (resetAction s).trace = s.trace ++ [.reset] := rfl
@[simp] theorem resetAction_env (s : State) : (resetAction s).env = s.env := rfl

/-! ## `State.reset` -/

@[simp] theorem State.reset_acc : State.reset.acc = [] := rfl
@[simp] theorem State.reset_hs : State.reset.hs = .idle := rfl
@[simp] theorem State.reset_startTick : State.reset.startTick = none := rfl
@[simp] theorem State.reset_waitTimeout : State.reset.waitTimeout = none := rfl
@[simp] theorem State.reset_got : State.reset.got = none := rfl
@[simp] theorem State.reset_ackTimeout : State.reset.ackTimeout = 200 := rfl
@[simp] theorem State.reset_pollInterval : State.reset.pollInterval = 10 := rfl
@[simp] theorem State.reset_sleeping : State.reset.sleeping = false := rfl
@[simp] theorem State.reset_params : State.reset.params = Params.ofConfig := rfl
@[simp] theorem State.reset_trace : State.reset.trace = [] := rfl
@[simp] theorem State.reset_env : State.reset.env = Env.unscripted := rfl

end Sys2Proof.Machine
end

