-- ==== Sys2Proof/Laws/Ops.lean ====
section
/-! SUPPORT. What each port operation can do, said once: the answer it takes from the environment and the one event
it records. -/

namespace Sys2Proof.Machine

/-! ## The environment's answers leave the host's queue and the reset schedule alone -/

theorem Env.drawSend_scripted (e : Env) (a : SendAnswer) (rest : List SendAnswer) :
    { e with sends := a :: rest }.drawSend = (a, { e with sends := rest }) := rfl

theorem Env.drawReceive_scripted (n : Nat) (e : Env) (bs : List Byte) (rest : List (List Byte)) :
    { e with receives := bs :: rest }.drawReceive n = (bs, { e with receives := rest }) := rfl

theorem Env.drawTick_scripted (e : Env) (t : Word) (rest : List Word) :
    { e with ticks := t :: rest }.drawTick = (t, { e with ticks := rest }) := rfl

theorem Env.drawSleepDone_scripted (e : Env) (done : Bool) (rest : List Bool) :
    { e with sleeps := done :: rest }.drawSleepDone = (done, { e with sleeps := rest }) := rfl

@[simp] theorem Env.drawSend_commands (e : Env) : e.drawSend.2.commands = e.commands := by
  unfold Env.drawSend; split <;> rfl

@[simp] theorem Env.drawSend_resets (e : Env) : e.drawSend.2.resets = e.resets := by
  unfold Env.drawSend; split <;> rfl

@[simp] theorem Env.drawReceive_commands (n : Nat) (e : Env) : (e.drawReceive n).2.commands = e.commands := by
  unfold Env.drawReceive; split <;> rfl

@[simp] theorem Env.drawReceive_resets (n : Nat) (e : Env) : (e.drawReceive n).2.resets = e.resets := by
  unfold Env.drawReceive; split <;> rfl

@[simp] theorem Env.drawReceive_ticks (n : Nat) (e : Env) : (e.drawReceive n).2.ticks = e.ticks := by
  unfold Env.drawReceive; split <;> rfl

@[simp] theorem Env.drawReceive_sleeps (n : Nat) (e : Env) : (e.drawReceive n).2.sleeps = e.sleeps := by
  unfold Env.drawReceive; split <;> rfl

@[simp] theorem Env.drawTick_commands (e : Env) : e.drawTick.2.commands = e.commands := by
  unfold Env.drawTick; split <;> rfl

@[simp] theorem Env.drawTick_resets (e : Env) : e.drawTick.2.resets = e.resets := by
  unfold Env.drawTick; split <;> rfl

@[simp] theorem Env.drawTick_receives (e : Env) : e.drawTick.2.receives = e.receives := by
  unfold Env.drawTick; split <;> rfl

@[simp] theorem Env.drawTick_sleeps (e : Env) : e.drawTick.2.sleeps = e.sleeps := by
  unfold Env.drawTick; split <;> rfl

@[simp] theorem Env.drawSleepDone_commands (e : Env) : e.drawSleepDone.2.commands = e.commands := by
  unfold Env.drawSleepDone; split <;> rfl

@[simp] theorem Env.drawSleepDone_resets (e : Env) : e.drawSleepDone.2.resets = e.resets := by
  unfold Env.drawSleepDone; split <;> rfl

@[simp] theorem Env.drawSleepDone_receives (e : Env) : e.drawSleepDone.2.receives = e.receives := by
  unfold Env.drawSleepDone; split <;> rfl

@[simp] theorem Env.drawSleepDone_ticks (e : Env) : e.drawSleepDone.2.ticks = e.ticks := by
  unfold Env.drawSleepDone; split <;> rfl

/-! ## The port operations -/

/-- A send takes one answer and records one event. -/
theorem txSend_eq (bs : List Byte) (s : State) :
    txSend bs s = (s.env.drawSend.1,
      { s with env := s.env.drawSend.2, trace := s.trace ++ [.txSend bs s.env.drawSend.1] }) := rfl

/-- A tick request takes one answer and records one event. -/
theorem nowMs_eq (s : State) :
    nowMs s = (s.env.drawTick.1,
      { s with env := s.env.drawTick.2, trace := s.trace ++ [.nowMs s.env.drawTick.1] }) := rfl

/-- A receive inside the transport's contract takes one answer and records one event. -/
theorem rxReceive_of_le (n : Nat) (s : State) (h : (s.env.drawReceive n).1.length ≤ n) :
    rxReceive n s = some ((s.env.drawReceive n).1,
      { s with
        env := (s.env.drawReceive n).2
        trace := s.trace ++ [.rxReceive n (s.env.drawReceive n).1] }) := by
  simp [rxReceive, h, State.record]

/-- A receive that answers too much is outside the contract. -/
theorem rxReceive_of_lt (n : Nat) (s : State) (h : n < (s.env.drawReceive n).1.length) : rxReceive n s = none := by
  simp [rxReceive, Nat.not_le.mpr h]

/-- A sleep step takes one answer, and records the request only where none is outstanding. -/
theorem sleepMs_eq (d : Word) (s : State) :
    sleepMs d s = (s.env.drawSleepDone.1,
      { s with
        sleeping := !s.env.drawSleepDone.1
        env := s.env.drawSleepDone.2
        trace := s.trace ++ if s.sleeping then [] else [.sleepMs d] }) := by
  unfold sleepMs
  cases h : s.sleeping <;> simp [State.record]

/-! ## The accumulator keeps its capacity (20_memory.md R36) -/

theorem accAppend_length (bs : List Byte) (s : State) :
    (accAppend bs s).acc.length = s.acc.length + bs.length := by simp

theorem accDropFront_length_le (k : Nat) (s : State) : (accDropFront k s).acc.length ≤ s.acc.length := by simp

/-- A drain never asks for more than the free space. -/
theorem drainSize_le_space (s : State) : drainSize s ≤ s.params.accCapacity - s.acc.length :=
  Nat.min_le_right _ _

theorem drainSize_le_chunk (s : State) : drainSize s ≤ s.params.rxChunk :=
  Nat.min_le_left _ _

/-! ## Codes -/

/-- The status codes of the table (30_encoding.md R60) are told apart by their bytes. -/
theorem Status.code_injective (a b : Status) (h : a.code = b.code) : a = b := by
  cases a <;> cases b <;> first | rfl | (exact absurd h (by decide))

/-- The eight codes of HS are told apart by their bits. -/
theorem HandshakeState.code_injective (a b : HandshakeState) (h : a.code = b.code) : a = b := by
  cases a <;> cases b <;> first | rfl | (exact absurd h (by decide))

end Sys2Proof.Machine
end

