-- ==== Sys2Proof/Laws/PerInstr.lean ====
section
/-! SUPPORT. Per-instruction laws about the encoding as syntax: the message of every well-formed instruction has the
exact length its own fields give (30_encoding.md R57). -/

namespace Sys2Proof.Laws.EncodedLength

/-- The message that states `i` has the exact length of its format. -/
def Statement (i : Instr) : Prop :=
  i.wellFormed = true → exactLength (encode i) = (encode i).length

theorem crc16 (data : List Byte) : Statement (.crc16 data) := by
  intro h
  obtain ⟨n0, n1, hl, hn⟩ := length16_states h
  simp [encode, hl, exactLength, byteAt, hn]
  omega

theorem construct (type : Byte) (payload : List Byte) : Statement (.construct type payload) := by
  intro h
  obtain ⟨n0, n1, hl, hn⟩ := length16_states h
  simp [encode, hl, exactLength, byteAt, hn]
  omega

theorem parse : Statement .parse := fun _ => rfl

theorem accAppend (data : List Byte) : Statement (.accAppend data) := by
  intro h
  obtain ⟨n0, n1, hl, hn⟩ := length16_states h
  simp [encode, hl, exactLength, byteAt, hn]
  omega

theorem sendFrame (type : Byte) (payload : List Byte) : Statement (.sendFrame type payload) := by
  intro h
  obtain ⟨n0, n1, hl, hn⟩ := length16_states h
  simp [encode, hl, exactLength, byteAt, hn]
  omega

theorem sendAck : Statement .sendAck := fun _ => rfl

theorem sendStartWord : Statement .sendStartWord := fun _ => rfl

theorem sendFrameWaitAck (useDefault : Bool) (type : Byte) (timeout : Word) (payload : List Byte) :
    Statement (.sendFrameWaitAck useDefault type timeout payload) := by
  intro h
  obtain ⟨n0, n1, hl, hn⟩ := length16_states h
  simp [encode, hl, le32, exactLength, byteAt, hn]
  omega

theorem cfgRead (reg : Byte) : Statement (.cfgRead reg) := fun _ => rfl

theorem cfgWrite (reg : Byte) (value : Word) : Statement (.cfgWrite reg value) := fun _ => rfl

theorem illegalZero (rest : List Byte) : Statement (.illegalZero rest) := fun _ => rfl

theorem illegalHigh (opcode : Byte) (rest : List Byte) : Statement (.illegalHigh opcode rest) := by
  intro h
  have hop : 0x0B ≤ opcode.toNat := by simpa [Instr.wellFormed] using h
  unfold exactLength
  split <;> simp_all [byteAt, encode]

end Sys2Proof.Laws.EncodedLength
end

