-- ==== Sys2Proof/Laws/Step.lean ====
section
/-! SUPPORT. What an instruction and what a step can do, said once: if `exec` or `step` answers a next state, that
state is one of the cases below. Provers cite `exec_effect` and `step_effect` and never unfold the machine. -/

namespace Sys2Proof.Machine

/-- What an accepted command can do to the state. -/
inductive ExecEffect (i : Instr) (s : State) : State → Prop where
  /-- It only responds, with a status that no wait's end has. -/
  | responds (st : Status) (data : List Byte) (hst : st ≠ .acked ∧ st ≠ .timedOut ∧ st ≠ .transportError) :
    ExecEffect i s (respond st data s)
  /-- PARSE. -/
  | parses (st : Status) (data : List Byte) (hi : i = .parse) (hst : st = .frame ∨ st = .incomplete ∨ st = .none) :
    ExecEffect i s (respond st data { s with acc := (parse s.acc).2 })
  /-- ACC_APPEND with room. -/
  | appends (data : List Byte) (hi : i = .accAppend data) (hfit : s.acc.length + data.length ≤ s.params.accCapacity) :
    ExecEffect i s (respond .ok [] (accAppend data s))
  /-- One frame handed to the transport, and a response. -/
  | sends (bs data : List Byte) (a : SendAnswer) (e : Env) (hn : s.env.drawSend = (a, e)) (st : Status)
    (hst : st = .ok ∨ st = .transportError) :
    ExecEffect i s (respond st data { s with env := e, trace := s.trace ++ [.txSend bs a] })
  /-- SEND_FRAME_WAIT_ACK whose frame the transport accepted. -/
  | waits (bs : List Byte) (timeout : Word) (e : Env) (hn : s.env.drawSend = (.ok, e)) :
    ExecEffect i s
      { s with env := e, waitTimeout := some timeout, hs := .sent, trace := s.trace ++ [.txSend bs .ok] }
  /-- CFG_WRITE of ACK_TIMEOUT. -/
  | writesAckTimeout (v : Word) : ExecEffect i s (respond .ok [] { s with ackTimeout := v })
  /-- CFG_WRITE of POLL_INTERVAL. -/
  | writesPollInterval (v : Word) : ExecEffect i s (respond .ok [] { s with pollInterval := v })

/-- The place in the reset schedule does not matter to a drain. -/
@[simp] theorem drainSize_passReset (s : State) : drainSize s.passReset = drainSize s := rfl

/-- The effect of handing one frame to the transport. -/
theorem sendOnce_effect (i : Instr) (type : Byte) (payload : List Byte) (s : State) :
    ExecEffect i s (sendOnce type payload s) := by
  obtain ⟨a, e, hn⟩ : ∃ a e, s.env.drawSend = (a, e) := ⟨_, _, rfl⟩
  simp only [sendOnce, txSend_eq, hn]
  cases a with
  | ok => exact .sends _ _ _ _ hn .ok (.inl rfl)
  | fail => exact .sends _ _ _ _ hn .transportError (.inr rfl)

/-- Every instruction answers a next state, and that state is one of the effects. -/
theorem exec_effect {i : Instr} {s t : State} (h : exec i s = .next t) : ExecEffect i s t := by
  cases i with
  | crc16 data => cases h; exact .responds .ok _ (by decide)
  | construct type payload =>
    cases h
    split
    · exact .responds .payloadTooLarge _ (by decide)
    · exact .responds .ok _ (by decide)
  | parse =>
    cases h
    simp only [dropParsed_eq]
    split
    · exact .parses .frame _ rfl (by decide)
    · exact .parses .incomplete _ rfl (by decide)
    · exact .parses .none _ rfl (by decide)
  | accAppend data =>
    cases h
    split
    · exact .responds .accOverflow _ (by decide)
    · exact .appends data rfl (by omega)
  | sendFrame type payload =>
    cases h
    split
    · exact .responds .payloadTooLarge _ (by decide)
    · exact sendOnce_effect _ _ _ _
  | sendAck => cases h; exact sendOnce_effect _ _ _ _
  | sendStartWord => cases h; exact sendOnce_effect _ _ _ _
  | sendFrameWaitAck useDefault type timeout payload =>
    cases h
    split
    · exact .responds .payloadTooLarge _ (by decide)
    · obtain ⟨a, e, hn⟩ : ∃ a e, s.env.drawSend = (a, e) := ⟨_, _, rfl⟩
      simp only [txSend_eq, hn]
      cases a with
      | ok => exact .waits _ _ _ hn
      | fail => exact .sends _ _ _ _ hn .transportError (.inr rfl)
  | cfgRead reg =>
    cases h
    split
    · exact .responds .ok _ (by decide)
    · exact .responds .badReg _ (by decide)
  | cfgWrite reg value =>
    cases h
    unfold cfgWrite
    by_cases h0 : reg = regAckTimeout
    · simp only [h0, if_true]
      exact .writesAckTimeout value
    · by_cases h1 : reg = regPollInterval
      · rw [if_neg h0, if_pos h1]
        exact .writesPollInterval value
      · simp only [h0, h1, if_false]
        exact .responds .badReg _ (by decide)
  | illegalZero rest => cases h; exact .responds .illegalCmd _ (by decide)
  | illegalHigh opcode rest => cases h; exact .responds .illegalCmd _ (by decide)

/-- The state in which the command port has taken the message `m` and left `rest` with the host. -/
def taken (s : State) (m : List Byte) (rest : List (List Byte)) : State :=
  { s.passReset with
    env := { s.passReset.env with commands := rest }
    trace := s.trace ++ [.command m] }

/-- What a step can do: in each case the whole next state, over `s.passReset`, whose place in the reset schedule is
used up. -/
inductive StepEffect (s : State) : State → Prop where
  /-- The reset input is asserted. -/
  | reset (hr : s.env.resetNow = true) : StepEffect s (resetAction s.passReset)
  /-- IDLE, no message offered. -/
  | idles (hr : s.env.resetNow = false) (hs : s.hs = .idle) (hc : s.env.commands = []) : StepEffect s s.passReset
  /-- IDLE, a malformed message taken. -/
  | rejects (m : List Byte) (rest : List (List Byte)) (why : Malformed) (hr : s.env.resetNow = false)
    (hs : s.hs = .idle) (hc : s.env.commands = m :: rest) (hd : decode m = .rejected why) :
    StepEffect s (respond .malformedCmd [] (taken s m rest))
  /-- IDLE, a command taken and run. -/
  | runs (m : List Byte) (rest : List (List Byte)) (i : Instr) (t : State) (hr : s.env.resetNow = false)
    (hs : s.hs = .idle) (hc : s.env.commands = m :: rest) (hd : decode m = .ok i)
    (he : ExecEffect i (taken s m rest) t) : StepEffect s t
  /-- SENT. -/
  | samples (now : Word) (e : Env) (hr : s.env.resetNow = false) (hs : s.hs = .sent)
    (hn : s.passReset.env.drawTick = (now, e)) :
    StepEffect s { s with env := e, startTick := some now, hs := .wCheck, trace := s.trace ++ [.nowMs now] }
  /-- W_CHECK before the deadline. -/
  | continues (start timeout now : Word) (e : Env) (hr : s.env.resetNow = false) (hs : s.hs = .wCheck)
    (hst : s.startTick = some start) (hto : s.waitTimeout = some timeout)
    (hn : s.passReset.env.drawTick = (now, e)) (hb : beforeDeadline now start timeout = true) :
    StepEffect s { s with env := e, hs := .wDrain, trace := s.trace ++ [.nowMs now] }
  /-- W_CHECK at or past the deadline. -/
  | timesOut (start timeout now : Word) (e : Env) (hr : s.env.resetNow = false) (hs : s.hs = .wCheck)
    (hst : s.startTick = some start) (hto : s.waitTimeout = some timeout)
    (hn : s.passReset.env.drawTick = (now, e)) (hb : beforeDeadline now start timeout = false) :
    StepEffect s { s with env := e, hs := .idle, trace := s.trace ++ [.nowMs now, .response [0x10, 0x00]] }
  /-- W_DRAIN inside the transport's contract. -/
  | drains (bs : List Byte) (e : Env) (hr : s.env.resetNow = false) (hs : s.hs = .wDrain)
    (hx : s.passReset.env.drawReceive (drainSize s) = (bs, e)) (hle : bs.length ≤ drainSize s) :
    StepEffect s
      { s with
        env := e, acc := s.acc ++ bs, got := some (gotFlag bs), hs := .wParse
        trace := s.trace ++ [.rxReceive (drainSize s) bs] }
  /-- W_PARSE with an ACK. -/
  | acked (f : Frame) (hr : s.env.resetNow = false) (hs : s.hs = .wParse) (hp : (parse s.acc).1 = .frame f)
    (hf : f.type = typeAck) :
    StepEffect s
      { s.passReset with acc := (parse s.acc).2, hs := .idle, trace := s.trace ++ [.response [0x04, 0x01]] }
  /-- W_PARSE with another frame. -/
  | discards (f : Frame) (hr : s.env.resetNow = false) (hs : s.hs = .wParse) (hp : (parse s.acc).1 = .frame f)
    (hf : f.type ≠ typeAck) :
    StepEffect s { s.passReset with acc := (parse s.acc).2 }
  /-- W_PARSE with no frame. -/
  | noFrame (got : Bool) (hr : s.env.resetNow = false) (hs : s.hs = .wParse)
    (hp : (parse s.acc).1 = .incomplete ∨ (parse s.acc).1 = .none) (hg : s.got = some got) :
    StepEffect s { s.passReset with acc := (parse s.acc).2, hs := if got then .wCheck else .wSleep }
  /-- W_SLEEP, the sleep completes at this step. -/
  | wakes (e : Env) (hr : s.env.resetNow = false) (hs : s.hs = .wSleep)
    (hn : s.passReset.env.drawSleepDone = (true, e)) :
    StepEffect s
      { s with
        env := e, sleeping := false, hs := .wCheck
        trace := s.trace ++ if s.sleeping then [] else [.sleepMs s.pollInterval] }
  /-- W_SLEEP, the sleep goes on. -/
  | sleepsOn (e : Env) (hr : s.env.resetNow = false) (hs : s.hs = .wSleep)
    (hn : s.passReset.env.drawSleepDone = (false, e)) :
    StepEffect s
      { s with
        env := e, sleeping := true
        trace := s.trace ++ if s.sleeping then [] else [.sleepMs s.pollInterval] }

/-- Every next state of a step is one of the effects. -/
theorem step_effect {s t : State} (h : step s = .next t) : StepEffect s t := by
  unfold step at h
  by_cases hr : s.env.resetNow = true
  · rw [if_pos hr] at h
    cases h
    exact .reset hr
  · have hr' : s.env.resetNow = false := by simpa using hr
    rw [if_neg hr] at h
    cases hs : s.hs with
    | idle =>
      rw [show stepBlock s.passReset = stepIdle s.passReset by simp only [stepBlock, State.passReset_hs, hs]] at h
      unfold stepIdle at h
      split at h
      · rename_i hc
        cases h
        exact .idles hr' hs hc
      · rename_i m rest hc
        unfold accept at h
        split at h
        · rename_i i hd
          exact .runs m rest i t hr' hs hc hd (exec_effect h)
        · rename_i why hd
          cases h
          exact .rejects m rest why hr' hs hc hd
    | sent =>
      simp only [stepBlock, State.passReset_hs, hs, stepSent, nowMs_eq] at h
      cases h
      exact .samples _ _ hr' hs rfl
    | wCheck =>
      simp only [stepBlock, State.passReset_hs, hs, stepCheck, State.passReset_startTick,
        State.passReset_waitTimeout, nowMs_eq] at h
      cases hst : s.startTick with
      | none => simp [hst] at h
      | some start =>
        cases hto : s.waitTimeout with
        | none => simp [hst, hto] at h
        | some timeout =>
          simp only [hst, hto] at h
          split at h
          · rename_i hb
            cases h
            have he := StepEffect.continues start timeout s.passReset.env.drawTick.1 s.passReset.env.drawTick.2
              hr' hs hst hto rfl hb
            simp only [hst, hto] at he
            exact he
          · rename_i hb
            cases h
            have he := StepEffect.timesOut start timeout s.passReset.env.drawTick.1 s.passReset.env.drawTick.2
              hr' hs hst hto rfl (Bool.eq_false_iff.mpr hb)
            simp only [hst, hto] at he
            simp only [respond, State.record, List.append_assoc]
            exact he
    | wDrain =>
      simp only [stepBlock, State.passReset_hs, hs, stepDrain, drainSize_passReset] at h
      by_cases hle : (s.passReset.env.drawReceive (drainSize s)).1.length ≤ drainSize s
      · rw [rxReceive_of_le _ _ hle] at h
        cases h
        exact .drains _ _ hr' hs rfl hle
      · rw [rxReceive_of_lt _ _ (Nat.lt_of_not_le hle)] at h
        cases h
    | wParse =>
      simp only [stepBlock, State.passReset_hs, hs, stepParse, State.passReset_acc, State.passReset_got,
        dropParsed_eq] at h
      cases hp : (parse s.acc).1 with
      | frame f =>
        simp only [hp] at h
        split at h
        · rename_i hf
          cases h
          exact .acked f hr' hs hp hf
        · rename_i hf
          cases h
          rw [show HandshakeState.wParse = s.passReset.hs from hs.symm]
          exact .discards f hr' hs hp hf
      | incomplete =>
        simp only [hp] at h
        split at h
        · cases h
        · rename_i hg
          cases h
          exact .noFrame true hr' hs (.inl hp) hg
        · rename_i hg
          cases h
          exact .noFrame false hr' hs (.inl hp) hg
      | none =>
        simp only [hp] at h
        split at h
        · cases h
        · rename_i hg
          cases h
          exact .noFrame true hr' hs (.inr hp) hg
        · rename_i hg
          cases h
          exact .noFrame false hr' hs (.inr hp) hg
    | wSleep =>
      simp only [stepBlock, State.passReset_hs, hs, stepSleep, State.passReset_pollInterval, sleepMs_eq] at h
      obtain ⟨done, e, hn⟩ : ∃ done e, s.passReset.env.drawSleepDone = (done, e) := ⟨_, _, rfl⟩
      cases done <;> simp only [hn] at h <;> cases h
      · rw [if_neg Bool.false_ne_true, show HandshakeState.wSleep = s.hs from hs.symm]
        exact .sleepsOn e hr' hs hn
      · exact .wakes e hr' hs hn
    | unused6 => simp [stepBlock, hs] at h
    | unused7 => simp [stepBlock, hs] at h

/-- Every instruction answers a next state in every state: no command traps (60_exceptions.md R123). -/
theorem exec_completes (i : Instr) (s : State) : ∃ t, exec i s = .next t := by
  cases i <;> exact ⟨_, rfl⟩

/-- With no message offered the block waits in IDLE, and nothing of it changes (log 2). -/
theorem step_idle_waits {s : State} (hr : s.env.resetNow = false) (hs : s.hs = .idle) (hc : s.env.commands = []) :
    step s = .next s.passReset := by
  simp [step, hr, stepBlock, hs, stepIdle, hc]

/-- No step changes the parameters (log 4). -/
theorem step_params {s t : State} (h : step s = .next t) : t.params = s.params := by
  cases step_effect h with
  | runs m rest i t hr hs hc hd he => cases he <;> rfl
  | _ => rfl

/-- The events a step added, where the new record is the old one with `es` behind it. -/
theorem newEvents_of_append {s t : State} {es : List PortEvent} (h : t.trace = s.trace ++ es) : newEvents s t = es := by
  simp [newEvents, h]

end Sys2Proof.Machine
end

