-- ==== Sys2Proof/Laws/Runs.lean ====
section
/-! SUPPORT. A wait seen over an infinite run: what its steps keep, and that each pass of its loop comes back to
W_CHECK. Provers cite these and never unfold the steps of a wait again. -/

namespace Sys2Proof.Machine

/-! ## One step of a wait -/

/-- A step at which reset is asserted leads to IDLE. -/
theorem step_reset_idle {s t : State} (h : step s = .next t) (hr : s.env.resetNow = true) : t.hs = .idle := by
  cases step_effect h <;> simp_all [resetAction, State.reset]

/-- The stop of 00_scope.md R16 is raised only by a read the invariant rules out: a step from a state that meets it reads
no register that holds no value. -/
theorem step_reads_no_absent {s : State} (hi : s.Inv) (r : ValuelessRegister) :
    step s ≠ .fault (.registerHoldsNoValue r) := by
  unfold step
  split
  · simp
  · cases hs : s.hs with
    | idle =>
      simp only [stepBlock, State.passReset_hs, hs, stepIdle]
      split
      · simp
      · unfold accept
        split
        · obtain ⟨t, ht⟩ := exec_completes _ _
          rw [ht]
          simp
        · simp [refuseMalformed]
    | sent => simp [stepBlock, hs, stepSent]
    | wCheck =>
      obtain ⟨timeout, ht⟩ := Option.isSome_iff_exists.mp (hi.timeout_held (by simp [hs]))
      obtain ⟨start, hst⟩ := Option.isSome_iff_exists.mp (hi.start_held (by simp [hs]) (by simp [hs]))
      simp only [stepBlock, State.passReset_hs, hs, stepCheck, State.passReset_startTick, State.passReset_waitTimeout, hst,
        ht]
      split <;> simp
    | wDrain =>
      simp only [stepBlock, State.passReset_hs, hs, stepDrain]
      split <;> simp
    | wParse =>
      obtain ⟨got, hg⟩ := Option.isSome_iff_exists.mp (hi.got_held hs)
      simp only [stepBlock, State.passReset_hs, hs, stepParse, State.passReset_acc, State.passReset_got, hg]
      split
      · split <;> simp
      · cases got <;> simp
      · cases got <;> simp
    | wSleep => simp [stepBlock, hs, stepSleep]
    | unused6 => simp [stepBlock, hs]
    | unused7 => simp [stepBlock, hs]

/-- A step of a wait that does not lead to IDLE found no reset. -/
theorem no_reset_of_step {s t : State} (h : step s = .next t) (ht : t.hs ≠ .idle) : s.env.resetNow = false :=
  Bool.eq_false_iff.mpr fun hr => ht (step_reset_idle h hr)

/-- A step of a wait that does not lead to IDLE keeps WAIT_TIMEOUT. -/
theorem step_keeps_waitTimeout {s t : State} (h : step s = .next t) (hs : s.hs ≠ .idle) (ht : t.hs ≠ .idle) :
    t.waitTimeout = s.waitTimeout := by
  have hr := no_reset_of_step h ht
  cases step_effect h <;> simp_all

/-- A step of a wait past SENT that does not lead to IDLE keeps START_TICK. -/
theorem step_keeps_startTick {s t : State} (h : step s = .next t) (hs : s.hs ≠ .idle) (hn : s.hs ≠ .sent)
    (ht : t.hs ≠ .idle) : t.startTick = s.startTick := by
  have hr := no_reset_of_step h ht
  cases step_effect h <;> simp_all

/-- A step of a wait never leads to SENT: there is no retry edge (44_handshake.md R98, R113). -/
theorem step_not_sent {s t : State} (h : step s = .next t) (hs : s.hs ≠ .idle) : t.hs ≠ .sent := by
  cases step_effect h with
  | noFrame got => cases got <;> simp_all
  | _ => simp_all [resetAction, State.reset]

/-- SENT records its sample and leads to W_CHECK. -/
theorem step_sent {s t : State} (h : step s = .next t) (hs : s.hs = .sent) (hr : s.env.resetNow = false) :
    t.hs = .wCheck ∧ t.startTick = some s.sample ∧ t.waitTimeout = s.waitTimeout := by
  cases step_effect h <;> simp_all [State.sample]

/-- W_CHECK either finds its sample before the deadline and leads to W_DRAIN, or leads to IDLE. -/
theorem step_check {s t : State} (h : step s = .next t) (hs : s.hs = .wCheck) (hr : s.env.resetNow = false) :
    ∃ start timeout, s.startTick = some start ∧ s.waitTimeout = some timeout ∧
      ((beforeDeadline s.sample start timeout = true ∧ t.hs = .wDrain) ∨
       (beforeDeadline s.sample start timeout = false ∧ t.hs = .idle)) := by
  cases step_effect h <;> simp_all [State.sample]

/-- W_DRAIN leads to W_PARSE. -/
theorem step_drain {s t : State} (h : step s = .next t) (hs : s.hs = .wDrain) (hr : s.env.resetNow = false) :
    t.hs = .wParse := by
  cases step_effect h <;> simp_all

/-- W_SLEEP leads to W_CHECK or stays. -/
theorem step_sleep {s t : State} (h : step s = .next t) (hs : s.hs = .wSleep) (hr : s.env.resetNow = false) :
    t.hs = .wCheck ∨ t.hs = .wSleep := by
  cases step_effect h <;> simp_all

/-- W_PARSE discards a frame and shortens ACC, or leads to W_CHECK or W_SLEEP, or ends the wait. -/
theorem step_parse {s t : State} (h : step s = .next t) (hs : s.hs = .wParse) (hr : s.env.resetNow = false) :
    (t.hs = .wParse ∧ t.acc.length < s.acc.length) ∨ t.hs = .wCheck ∨ t.hs = .wSleep ∨ t.hs = .idle := by
  cases step_effect h with
  | discards f _ _ hp => exact .inl ⟨hs, parse_frame_shorter hp⟩
  | noFrame got => cases got <;> simp_all
  | _ => simp_all

/-! ## A run that stays in its wait -/

section

variable {σ : Nat → State} {first last : Nat}

/-- WAIT_TIMEOUT is the same all through a wait. -/
theorem run_waitTimeout (hσ : IsRun σ) (hw : ∀ k, first ≤ k → k ≤ last → (σ k).hs ≠ .idle) :
    ∀ n, first ≤ n → n ≤ last → (σ n).waitTimeout = (σ first).waitTimeout := by
  intro n h1 h2
  induction n, h1 using Nat.le_induction with
  | base => rfl
  | succ n h1 ih =>
    rw [step_keeps_waitTimeout (hσ n) (hw n h1 (by omega)) (hw (n + 1) (by omega) h2), ih (by omega)]

/-- A wait never comes back to SENT. -/
theorem run_not_sent (hσ : IsRun σ) (hw : ∀ k, first ≤ k → k ≤ last → (σ k).hs ≠ .idle) :
    ∀ n, first < n → n ≤ last → (σ n).hs ≠ .sent := by
  intro n h1 h2
  obtain ⟨m, rfl⟩ : ∃ m, n = m + 1 := ⟨n - 1, by omega⟩
  exact step_not_sent (hσ m) (hw m (by omega) (by omega))

/-- START_TICK holds the SENT step's sample all through the rest of the wait. -/
theorem run_startTick (hσ : IsRun σ) (hw : ∀ k, first ≤ k → k ≤ last → (σ k).hs ≠ .idle)
    (hs : (σ first).hs = .sent) (hr : (σ first).env.resetNow = false) :
    ∀ n, first < n → n ≤ last → (σ n).startTick = some (σ first).sample := by
  intro n h1 h2
  induction n, h1 using Nat.le_induction with
  | base => exact (step_sent (hσ first) hs hr).2.1
  | succ n h1 ih =>
    have hn : first < n := h1
    rw [step_keeps_startTick (hσ n) (hw n (by omega) (by omega)) (run_not_sent hσ hw n hn (by omega))
      (hw (n + 1) (by omega) h2), ih (by omega)]

/-! ## The loop comes back to W_CHECK, taking no sample on the way -/

/-- From W_SLEEP, where every sleep completes. -/
theorem run_sleep_to_check (hσ : IsRun σ) (hw : ∀ k, first ≤ k → (σ k).hs ≠ .idle)
    (hsl : ∀ n, (σ n).hs = .wSleep → ∃ m, n ≤ m ∧ (σ m).hs ≠ .wSleep) (n : Nat) (hn : first ≤ n)
    (hs : (σ n).hs = .wSleep) :
    ∃ m, n < m ∧ (σ m).hs = .wCheck ∧ ∀ k, n ≤ k → k < m → (σ k).hs = .wSleep := by
  have hex : ∃ m, n ≤ m ∧ (σ m).hs ≠ .wSleep := hsl n hs
  classical
  obtain ⟨hle, hne⟩ := Nat.find_spec hex
  have hasleep : ∀ k, n ≤ k → k < Nat.find hex → (σ k).hs = .wSleep := fun k hk hlt =>
    not_not.mp fun h => Nat.find_min hex hlt ⟨hk, h⟩
  obtain ⟨m, hm⟩ : ∃ m, Nat.find hex = m + 1 :=
    ⟨Nat.find hex - 1, by
      have : Nat.find hex ≠ n := fun h => hne (by rw [h]; exact hs)
      omega⟩
  rw [hm] at hle hne hasleep
  have hnm : n ≤ m := by
    rcases Nat.lt_or_ge n (m + 1) with h | h
    · omega
    · exact absurd (by rw [show m + 1 = n by omega]; exact hs) hne
  have hr := no_reset_of_step (hσ m) (hw (m + 1) (by omega))
  exact ⟨m + 1, by omega, (step_sleep (hσ m) (hasleep m hnm (by omega)) hr).resolve_right hne, hasleep⟩

/-- From W_PARSE: the discarding steps shorten ACC, so they end. -/
theorem run_parse_to_check (hσ : IsRun σ) (hw : ∀ k, first ≤ k → (σ k).hs ≠ .idle)
    (hsl : ∀ n, (σ n).hs = .wSleep → ∃ m, n ≤ m ∧ (σ m).hs ≠ .wSleep) (n : Nat) (hn : first ≤ n)
    (hs : (σ n).hs = .wParse) :
    ∃ m, n < m ∧ (σ m).hs = .wCheck ∧ ∀ k, n ≤ k → k < m → (σ k).hs = .wParse ∨ (σ k).hs = .wSleep := by
  induction hlen : (σ n).acc.length using Nat.strong_induction_on generalizing n with
  | _ len ih =>
    have extend : ∀ m, (∀ k, n + 1 ≤ k → k < m → (σ k).hs = .wParse ∨ (σ k).hs = .wSleep) →
        ∀ k, n ≤ k → k < m → (σ k).hs = .wParse ∨ (σ k).hs = .wSleep := fun m h k hk hkm => by
      rcases Nat.eq_or_lt_of_le hk with rfl | hlt
      · exact .inl hs
      · exact h k hlt hkm
    rcases step_parse (hσ n) hs (no_reset_of_step (hσ n) (hw (n + 1) (by omega))) with ⟨hp, hlt⟩ | hc | hp | hi
    · obtain ⟨m, h1, h2, h3⟩ := ih _ (hlen ▸ hlt) (n + 1) (by omega) hp rfl
      exact ⟨m, by omega, h2, extend m h3⟩
    · exact ⟨n + 1, by omega, hc, extend (n + 1) fun k h1 h2 => by omega⟩
    · obtain ⟨m, h1, h2, h3⟩ := run_sleep_to_check hσ hw hsl (n + 1) (by omega) hp
      exact ⟨m, by omega, h2, extend m fun k h4 h5 => .inr (h3 k h4 h5)⟩
    · exact absurd hi (hw (n + 1) (by omega))

/-- From a sample, SENT or W_CHECK: the next sample is a W_CHECK. -/
theorem run_next_check (hσ : IsRun σ) (hw : ∀ k, first ≤ k → (σ k).hs ≠ .idle)
    (hsl : ∀ n, (σ n).hs = .wSleep → ∃ m, n ≤ m ∧ (σ m).hs ≠ .wSleep) (n : Nat) (hn : first ≤ n)
    (hs : (σ n).Samples) :
    ∃ m, n < m ∧ (σ m).Samples ∧ (σ m).hs = .wCheck ∧ ∀ k, n < k → k < m → ¬ (σ k).Samples := by
  have hr := fun k (hk : first ≤ k) => no_reset_of_step (hσ k) (hw (k + 1) (by omega))
  rcases hs.2 with hs | hs
  · have hc := (step_sent (hσ n) hs (hr n hn)).1
    exact ⟨n + 1, by omega, ⟨hr _ (by omega), .inr hc⟩, hc, fun k h1 h2 => by omega⟩
  · obtain ⟨_, _, -, -, ⟨-, hd⟩ | ⟨-, hi⟩⟩ := step_check (hσ n) hs (hr n hn)
    · have hp := step_drain (hσ (n + 1)) hd (hr _ (by omega))
      obtain ⟨m, h1, h2, h3⟩ := run_parse_to_check hσ hw hsl (n + 2) (by omega) hp
      refine ⟨m, by omega, ⟨hr m (by omega), .inr h2⟩, h2, fun k h4 h5 hk => ?_⟩
      rcases Nat.eq_or_lt_of_le (show n + 1 ≤ k by omega) with rfl | h6
      · simp [State.Samples, hd] at hk
      · rcases h3 k h6 h5 with h | h <;> simp [State.Samples, h] at hk
    · exact absurd hi (hw (n + 1) (by omega))

end

/-! ## Ticks that read real time -/

/-- Elapsed time between two ticks that read real times less than `2^32` apart is the real time between them. -/
theorem elapsed_of_real (t0 a b : Nat) (hab : a ≤ b) (h : b - a < 2 ^ 32) :
    (elapsed (BitVec.ofNat 32 (t0 + b)) (BitVec.ofNat 32 (t0 + a))).toNat = b - a := by
  simp only [elapsed, BitVec.toNat_sub, BitVec.toNat_ofNat]
  omega

/-- Real time never goes back over any number of steps (TA1). -/
theorem TA1.mono {t0 : Nat} {rt : Nat → Nat} {σ : Nat → State} (h : TA1 t0 rt σ) : Monotone rt :=
  monotone_nat_of_le_succ h.never_back

end Sys2Proof.Machine
end

