-- ==== Sys2Proof/Tests/Slice0.lean ====
section
/-! SUPPORT. Tests. Every expected result is a row of spec/95_test_vectors.md or is worked out by hand from the rule
named; none is the model's own answer. The last part shows, for every statement with hypotheses, a concrete state and
operands that meet them all. -/

namespace Sys2Proof.Tests

-- The tests are checked one after another: in parallel they pass the check's memory limit.
set_option Elab.async false

open Sys2Proof.Machine

/-! ## Helpers -/

/-- The reset state with the parameters the vectors use: ACC_CAPACITY = 261, RX_CHUNK = 64 (95_test_vectors.md 1). -/
def base : State := { State.reset with params := ⟨261, 64, 0⟩ }

/-- The same with `bs` in ACC. -/
def holding (bs : List Byte) : State := { base with acc := bs }

/-- A wait in progress: start tick 0, timeout 200, the latest drain got nothing. -/
def waiting (hs : HandshakeState) (bs : List Byte) : State :=
  { base with acc := bs, hs := hs, startTick := some 0, waitTimeout := some 200, got := some false }

/-- `s` with the host offering the one message `m`. -/
def offered (m : List Byte) (s : State) : State := { s with env := { s.env with commands := [m] } }

/-- `s` with scripted answers. -/
def scripted (sends : List SendAnswer) (receives : List (List Byte)) (ticks : List Word) (sleeps : List Bool)
    (s : State) : State :=
  { s with env := { s.env with sends := sends, receives := receives, ticks := ticks, sleeps := sleeps } }

/-- What one look at the state after one step shows: ACC, HS and the events of the step. -/
def look (s : State) : Option (List Byte × HandshakeState × List PortEvent) :=
  match step s with
  | .next t => some (t.acc, t.hs, newEvents s t)
  | .fault _ => none
  | .refused _ => none

/-- What a look shows is so of the next state. -/
theorem next_of_look {s : State} {a : List Byte} {h : HandshakeState} {es : List PortEvent}
    (hl : look s = some (a, h, es)) : ∃ t, step s = .next t ∧ t.acc = a ∧ t.hs = h ∧ newEvents s t = es := by
  unfold look at hl
  split at hl
  · rename_i t ht
    cases hl
    exact ⟨t, ht, rfl, rfl, rfl⟩
  · cases hl
  · cases hl

/-- The response of one command taken in `s`. -/
def answer (m : List Byte) (s : State) : Option PortEvent :=
  match step (offered m s) with
  | .next t => t.trace.getLast?
  | .fault _ => none
  | .refused _ => none

/-- ACKF, the frame `wire(ACK, [])` of the vectors. -/
def ackf : List Byte := [0x55, 0xAA, 0x00, 0x02, 0xA1, 0x17]

/-- A, the frame `wire(DATA, [01 02 03])` of the vectors. -/
def frameA : List Byte := [0x55, 0xAA, 0x03, 0x04, 0x01, 0x02, 0x03, 0xC6, 0x40]

/-- The length field's check on `n` equal bytes. -/
theorem fitsLengthField_replicate (n : Nat) (b : Byte) :
    fitsLengthField (List.replicate n b) = decide (n ≤ 65535) := by
  rw [fitsLengthField, List.length_replicate]

/-! ## WellFormed: a term each check refuses, and the longest each admits (30_encoding.md R57, R61) -/

theorem test_wellFormed_refuses_long_crc16 : (Instr.crc16 (List.replicate 65536 0)).wellFormed = false := by
  exact fitsLengthField_replicate _ _

theorem test_wellFormed_refuses_long_construct : (Instr.construct 4 (List.replicate 65536 0)).wellFormed = false := by
  exact fitsLengthField_replicate _ _

theorem test_wellFormed_refuses_long_append : (Instr.accAppend (List.replicate 65536 0)).wellFormed = false := by
  exact fitsLengthField_replicate _ _

theorem test_wellFormed_refuses_long_send : (Instr.sendFrame 4 (List.replicate 65536 0)).wellFormed = false := by
  exact fitsLengthField_replicate _ _

theorem test_wellFormed_refuses_long_wait :
    (Instr.sendFrameWaitAck true 4 0 (List.replicate 65536 0)).wellFormed = false := by
  exact fitsLengthField_replicate _ _

theorem test_wellFormed_refuses_legal_opcode : (Instr.illegalHigh 0x0A []).wellFormed = false := by decide

theorem test_wellFormed_admits_the_longest : (Instr.crc16 (List.replicate 65535 0)).wellFormed = true := by
  exact fitsLengthField_replicate _ _

theorem test_wellFormed_admits_the_first_illegal : (Instr.illegalHigh 0x0B []).wellFormed = true := by decide

/-! ## Decoding, words written out from 30_encoding.md R57 and R63 (the examples of the command rules) -/

theorem test_decode_crc16 :
    decode [0x01, 0x09, 0x00, 0x31, 0x32, 0x33, 0x34, 0x35, 0x36, 0x37, 0x38, 0x39]
      = .ok (.crc16 [0x31, 0x32, 0x33, 0x34, 0x35, 0x36, 0x37, 0x38, 0x39]) := by decide

theorem test_decode_construct : decode [0x02, 0xFF, 0x02, 0x00, 0x55, 0xAA] = .ok (.construct 0xFF [0x55, 0xAA]) := by
  decide

theorem test_decode_parse : decode [0x03] = .ok .parse := by decide

theorem test_decode_accAppend : decode [0x04, 0x02, 0x00, 0xAA, 0x00] = .ok (.accAppend [0xAA, 0x00]) := by decide

theorem test_decode_sendFrame :
    decode [0x05, 0x04, 0x03, 0x00, 0x01, 0x02, 0x03] = .ok (.sendFrame 0x04 [0x01, 0x02, 0x03]) := by decide

theorem test_decode_sendAck : decode [0x06] = .ok .sendAck := by decide

theorem test_decode_sendStartWord : decode [0x07] = .ok .sendStartWord := by decide

theorem test_decode_sendFrameWaitAck :
    decode [0x08, 0x00, 0x04, 0x64, 0x00, 0x00, 0x00, 0x01, 0x00, 0xAB]
      = .ok (.sendFrameWaitAck false 0x04 100 [0xAB]) := by decide

theorem test_decode_sendFrameWaitAck_default :
    decode [0x08, 0x01, 0x04, 0x00, 0x00, 0x00, 0x00, 0x02, 0x00, 0x48, 0x49]
      = .ok (waitAckWithDefault 0x04 [0x48, 0x49]) := by decide

theorem test_decode_cfgRead : decode [0x09, 0x03] = .ok (.cfgRead 0x03) := by decide

theorem test_decode_cfgWrite : decode [0x0A, 0x02, 0x2C, 0x01, 0x00, 0x00] = .ok (.cfgWrite 0x02 300) := by decide

theorem test_decode_illegalZero : decode [0x00] = .ok (.illegalZero []) := by decide

theorem test_decode_illegalHigh : decode [0xFF, 0x00, 0x00] = .ok (.illegalHigh 0xFF [0x00, 0x00]) := by decide

/-- The rejected rows of 45_config.md R121, 95_test_vectors.md 3.5 and 3.8. -/
theorem test_decode_rejects :
    decode [] = .rejected .empty ∧
    decode [0x03, 0x00] = .rejected .wrongLength ∧
    decode [0x01, 0x05, 0x00, 0x31] = .rejected .wrongLength ∧
    decode [0x01, 0x00] = .rejected .shorterThanFixedPart ∧
    decode [0x02, 0x04, 0x01] = .rejected .shorterThanFixedPart ∧
    decode [0x09] = .rejected .shorterThanFixedPart ∧
    decode [0x09, 0x05, 0x00] = .rejected .wrongLength ∧
    decode [0x0A, 0x00, 0x01] = .rejected .shorterThanFixedPart ∧
    decode [0x08, 0x02, 0x04, 0xC8, 0x00, 0x00, 0x00, 0x00, 0x00] = .rejected .reservedFlags ∧
    decode [0x08, 0x80, 0x04, 0xC8, 0x00, 0x00, 0x00, 0x00, 0x00] = .rejected .reservedFlags ∧
    decode [0x08, 0x01, 0x04, 0x00, 0x00, 0x00, 0x00, 0x01, 0x00] = .rejected .wrongLength := by decide

/-- Encoding writes the bytes of 30_encoding.md R63. -/
theorem test_encode_wait :
    encode (waitAckWithDefault 0x06 [0x10, 0x20])
      = [0x08, 0x01, 0x06, 0x00, 0x00, 0x00, 0x00, 0x02, 0x00, 0x10, 0x20] := by decide

/-! ## The opcode table's words -/

/-- Each row's word, as the table numbers it, decodes to the row's instruction. -/
theorem test_decodeTableWord_rows :
    decodeTableWord 8 0x01 = some (.crc16 []) ∧ decodeTableWord 8 0x02 = some (.construct 0 []) ∧
    decodeTableWord 8 0x03 = some .parse ∧ decodeTableWord 8 0x04 = some (.accAppend []) ∧
    decodeTableWord 8 0x05 = some (.sendFrame 0 []) ∧ decodeTableWord 8 0x06 = some .sendAck ∧
    decodeTableWord 8 0x07 = some .sendStartWord ∧
    decodeTableWord 8 0x08 = some (.sendFrameWaitAck false 0 0 []) ∧
    decodeTableWord 8 0x09 = some (.cfgRead 0) ∧ decodeTableWord 8 0x0A = some (.cfgWrite 0 0) ∧
    decodeTableWord 8 0x00 = some (.illegalZero []) ∧ decodeTableWord 8 0x0B = some (.illegalHigh 0x0B []) ∧
    decodeTableWord 8 0x80 = some (.illegalHigh 0x80 []) := by decide

/-- Byte k of the message is bits 8k+7 to 8k of the word. -/
theorem test_decodeTableWord_order :
    decodeTableWord 48 0x0000012C020A = some (.cfgWrite 0x02 300) ∧ decodeTableWord 8 0x108 = some (.sendFrameWaitAck false 0 0 []) := by
  decide

/-- The very next step after `withFetchWord` runs the word's instruction. -/
theorem test_withFetchWord_runs :
    step (State.reset.withFetchWord 16 0x0109) =
      exec (.cfgRead 0x01) ({ State.reset with env := { State.reset.env with commands := [] } }.record (.command [0x09, 0x01])) := by
  rfl

/-! ## CRC16 (95_test_vectors.md 3.1) -/

theorem test_crcUpdate_rows :
    crcUpdate 0xFFFF 0x00 = 0xE1F0 ∧ crcUpdate 0xFFFF 0xFF = 0xFF00 ∧ crcUpdate 0x0000 0x80 = 0x9188 ∧
    crcUpdate 0x8000 0x00 = 0x9188 ∧ crcUpdate 0x1021 0x10 = 0x2100 ∧ crcUpdate 0xEBA0 0xAA = 0xF8E5 := by decide

theorem test_crc16_check_value :
    answer [0x01, 0x09, 0x00, 0x31, 0x32, 0x33, 0x34, 0x35, 0x36, 0x37, 0x38, 0x39] base
      = some (.response [0x00, 0xB1, 0x29]) := by decide +kernel

theorem test_crc16_empty : answer [0x01, 0x00, 0x00] base = some (.response [0x00, 0xFF, 0xFF]) := by decide

/-! ## CONSTRUCT (95_test_vectors.md 3.2, W7) -/

theorem test_construct :
    answer [0x02, 0x00, 0x04, 0x00, 0x00, 0x00, 0x00, 0x00] base
      = some (.response [0x00, 0x0A, 0x00, 0x55, 0xAA, 0x04, 0x00, 0x00, 0x00, 0x00, 0x00, 0x04, 0x82]) := by
  decide +kernel

theorem test_construct_256 :
    answer ([0x02, 0x04, 0x00, 0x01] ++ List.replicate 256 0) base = some (.response [0x12]) := by decide +kernel

/-! ## PARSE (95_test_vectors.md 3.3) -/

theorem test_parse_rows :
    parse [] = (.none, []) ∧ parse [0x55] = (.incomplete, [0x55]) ∧ parse [0x12, 0x55] = (.incomplete, [0x55]) ∧
    parse [0xAA, 0x55, 0x00] = (.none, []) ∧ parse [0x55, 0xAA, 0x00] = (.incomplete, [0x55, 0xAA, 0x00]) ∧
    parse [0x55, 0xAA, 0x00, 0x02, 0xA1] = (.incomplete, [0x55, 0xAA, 0x00, 0x02, 0xA1]) ∧
    parse [0x55, 0xAA, 0x00, 0x02, 0x00, 0x55] = (.incomplete, [0x55]) ∧
    parse [0x55, 0xAA, 0x02, 0x04, 0x55, 0xAA, 0x0D, 0x85] = (.frame ⟨0x04, [0x55, 0xAA]⟩, []) ∧
    parse [0x55, 0xAA, 0x06, 0x04, 0x55, 0xAA, 0x00, 0x02, 0xA1, 0x17, 0xB8, 0x0F]
      = (.frame ⟨0x02, []⟩, [0xB8, 0x0F]) := by decide +kernel

theorem test_parse_resynchronises :
    look (offered [0x03] (holding ([0x55, 0xAA, 0x03, 0x04, 0x01, 0x02, 0x03, 0xC6, 0x41] ++ ackf ++ [0x55])))
      = some ([0x55], .idle, [.command [0x03], .response [0x01, 0x02, 0x00]]) := by decide +kernel

/-! ## ACC_APPEND, the capacity at its edge (95_test_vectors.md 3.3) -/

theorem test_accAppend_fills :
    answer (0x04 :: 61 :: 0 :: List.replicate 61 1) (holding (List.replicate 200 0)) = some (.response [0x00]) := by
  decide +kernel

theorem test_accAppend_overflows :
    look (offered (0x04 :: 62 :: 0 :: List.replicate 62 1) (holding (List.replicate 200 0)))
      = some (List.replicate 200 0, .idle,
          [.command (0x04 :: 62 :: 0 :: List.replicate 62 1), .response [0x13]]) := by decide +kernel

/-! ## SEND_FRAME, SEND_ACK, SEND_START_WORD (95_test_vectors.md 3.4) -/

theorem test_sendFrame_fails :
    look (offered [0x05, 0x04, 0x03, 0x00, 0x01, 0x02, 0x03] (scripted [.fail] [] [] [] base))
      = some ([], .idle,
          [.command [0x05, 0x04, 0x03, 0x00, 0x01, 0x02, 0x03], .txSend frameA .fail, .response [0x11]]) := by
  decide +kernel

theorem test_sendFrame_256 :
    answer ([0x05, 0x04, 0x00, 0x01] ++ List.replicate 256 0) base = some (.response [0x12]) := by decide +kernel

theorem test_sendAck :
    look (offered [0x06] (scripted [.ok] [] [] [] base))
      = some ([], .idle, [.command [0x06], .txSend ackf .ok, .response [0x00]]) := by decide +kernel

theorem test_sendStartWord :
    look (offered [0x07] (scripted [.fail] [] [] [] base))
      = some ([], .idle,
          [.command [0x07], .txSend [0x55, 0xAA, 0x00, 0x01, 0xC2, 0x27] .fail, .response [0x11]]) := by
  decide +kernel

/-! ## SEND_FRAME_WAIT_ACK (44_handshake.md R104 to R109; 95_test_vectors.md HS1 to HS18) -/

/-- HS14: the wait takes the default timeout; HS4: over 255 bytes nothing is sent. -/
theorem test_wait_takes_default :
    (match step (offered [0x08, 0x01, 0x04, 0xFF, 0x00, 0x00, 0x00, 0x00, 0x00]
        { scripted [.ok] [] [] [] base with ackTimeout := 15 }) with
     | .next t => (t.waitTimeout, t.hs)
     | _ => (none, .idle)) = (some 15, .sent) := by decide +kernel

theorem test_wait_payload_too_large :
    answer ([0x08, 0x00, 0x04, 0xC8, 0x00, 0x00, 0x00, 0x00, 0x01] ++ List.replicate 256 0) base
      = some (.response [0x12, 0x00]) := by decide +kernel

/-- HS3: a failed send ends the command at once. -/
theorem test_wait_transport_error :
    (look (offered [0x08, 0x00, 0x04, 0xC8, 0x00, 0x00, 0x00, 0x00, 0x00] (scripted [.fail] [] [] [] base))).map
      (fun r => (r.2.1, r.2.2.getLast?)) = some (.idle, some (.response [0x11, 0x00])) := by decide +kernel

/-- W_CHECK rows of 95_test_vectors.md W9: the last millisecond, the deadline, and both across the wrap. -/
theorem test_deadline_rows :
    beforeDeadline 0x000004AF 0x000003E8 200 = true ∧ beforeDeadline 0x000004B0 0x000003E8 200 = false ∧
    beforeDeadline 0x00000004 0xFFFFFFF0 100 = true ∧ beforeDeadline 0x00000054 0xFFFFFFF0 100 = false ∧
    beforeDeadline 0x00000000 0x00000010 100 = false ∧ beforeDeadline 0x80000000 0x7FFFFFFF 200 = true ∧
    beforeDeadline 0x00000005 0x00000005 0 = false ∧ beforeDeadline 0xFFFFFFFE 0 0xFFFFFFFF = true := by decide

theorem test_sent_step :
    look (scripted [] [] [1000] [] { base with hs := .sent, waitTimeout := some 200 })
      = some ([], .wCheck, [.nowMs 1000]) := by decide

theorem test_check_step_times_out :
    look (scripted [] [] [200] [] (waiting .wCheck ackf))
      = some (ackf, .idle, [.nowMs 200, .response [0x10, 0x00]]) := by decide

/-- HS12: a full accumulator asks for no byte. -/
theorem test_drain_step_full :
    look (scripted [] [[]] [] [] (waiting .wDrain (List.replicate 261 0)))
      = some (List.replicate 261 0, .wParse, [.rxReceive 0 []]) := by decide +kernel

/-- A transport that answers more than asked is outside its contract (93_implementation_defined.md I26). -/
theorem test_drain_step_overrun :
    (match step (scripted [] [[0x00]] [] [] (waiting .wDrain (List.replicate 261 0))) with
     | .fault r => some r
     | _ => none) = some .receiveOverrun := by decide +kernel

/-- HS6 and HS8: a NACK is discarded, an ACK ends the wait and leaves what is behind it. -/
theorem test_parse_step_nack :
    look (waiting .wParse ([0x55, 0xAA, 0x00, 0x03, 0x80, 0x07] ++ ackf)) = some (ackf, .wParse, []) := by
  decide +kernel

theorem test_parse_step_ack :
    look (waiting .wParse (ackf ++ ackf)) = some (ackf, .idle, [.response [0x04, 0x01]]) := by decide +kernel

theorem test_parse_step_sleeps : look (waiting .wParse [0x00]) = some ([], .wSleep, []) := by decide

theorem test_sleep_step :
    look (scripted [] [] [] [true] (waiting .wSleep [])) = some ([], .wCheck, [.sleepMs 10]) := by decide

/-- A sleep that does not complete keeps the block in W_SLEEP (I9), and asks only once. -/
theorem test_sleep_step_stays :
    look (scripted [] [] [] [false] (waiting .wSleep [])) = some ([], .wSleep, [.sleepMs 10]) ∧
    look (scripted [] [] [] [false] { waiting .wSleep [] with sleeping := true }) = some ([], .wSleep, []) := by
  decide

/-- The broken invariant of 10_state.md R18 and the absent register of 00_scope.md R16 are faults. -/
theorem test_broken_invariants_fault :
    (match step { base with hs := .unused6 } with | .fault r => some r | _ => none)
      = some (.unusedHandshakeCode .unused6) ∧
    (match step { base with hs := .wCheck } with | .fault r => some r | _ => none)
      = some (.registerHoldsNoValue .startTick) := by decide

/-! ## CFG_READ, CFG_WRITE, illegal and malformed messages (95_test_vectors.md 3.6) -/

theorem test_cfgRead_rows :
    answer [0x09, 0x00] base = some (.response [0x00, 0xC8, 0x00, 0x00, 0x00]) ∧
    answer [0x09, 0x02] base = some (.response [0x00, 0xFF, 0x00, 0x00, 0x00]) ∧
    answer [0x09, 0x03] (holding frameA) = some (.response [0x00, 0x09, 0x00, 0x00, 0x00]) ∧
    answer [0x09, 0x04] base = some (.response [0x15]) := by decide

theorem test_cfgWrite_rows :
    (match step (offered [0x0A, 0x00, 0xF4, 0x01, 0x00, 0x00] base) with
     | .next t => (t.ackTimeout, t.pollInterval)
     | _ => (0, 0)) = (500, 10) ∧
    answer [0x0A, 0x01, 0x00, 0x00, 0x00, 0x00] base = some (.response [0x00]) ∧
    answer [0x0A, 0x02, 0x64, 0x00, 0x00, 0x00] base = some (.response [0x15]) ∧
    answer [0x0A, 0x03, 0x00, 0x00, 0x00, 0x00] (holding frameA) = some (.response [0x15]) := by decide

theorem test_illegal_and_malformed :
    answer [0x00] base = some (.response [0x14]) ∧ answer [0xFF, 0x00, 0x00] base = some (.response [0x14]) ∧
    answer [0x0B, 0x00] base = some (.response [0x14]) ∧ answer [] base = some (.response [0x16]) ∧
    answer [0x03, 0x00] base = some (.response [0x16]) := by decide

/-! ## Reset (95_test_vectors.md 3.7) -/

theorem test_reset_abandons_wait :
    (match step { waiting .wCheck ackf with ackTimeout := 500, env := { base.env with resets := [true] } } with
     | .next t => (t.acc, t.hs, t.startTick, t.ackTimeout, t.pollInterval, t.trace)
     | _ => ([], .unused6, none, 0, 0, [])) = ([], .idle, none, 200, 10, [.reset]) := by decide

/-! ## Witnesses: for every statement with hypotheses, values that meet them all, its clauses' boundaries among them -/

theorem test_witness_DecodeAfterEncode : (Instr.sendFrameWaitAck true 0xFF 0xFFFFFFFF [0xAB]).wellFormed = true := by
  decide

theorem test_witness_EncodeAfterDecode :
    decode [0x08, 0x01, 0xFF, 0xFF, 0xFF, 0xFF, 0xFF, 0x00, 0x00]
      = .ok (.sendFrameWaitAck true 0xFF 0xFFFFFFFF []) := by decide

/-- MalformedMessagesRefused: a state that offers a malformed message, and messages on both sides of R62. -/
theorem test_witness_MalformedMessagesRefused :
    (let s := offered [0x09] base
     s.env.resetNow = false ∧ s.hs = .idle ∧ s.env.commands = [0x09] :: [] ∧
     decode [0x09] = .rejected .shorterThanFixedPart) ∧
    (⟨0x08, 9, some 7⟩ : CommandFormat).Malformed [0x08, 0x02, 0x04, 0, 0, 0, 0, 0, 0] ∧
    ¬ (⟨0x08, 9, some 7⟩ : CommandFormat).Malformed [0x08, 0x01, 0x04, 0, 0, 0, 0, 0, 0] ∧
    ¬ (⟨0x03, 1, none⟩ : CommandFormat).Malformed [0x03] := by
  unfold CommandFormat.Malformed
  decide

theorem test_witness_StepRunsDecodedCommand :
    let s := offered [0x0A, 0x00, 0xF4, 0x01, 0x00, 0x00] base
    s.env.resetNow = false ∧ s.hs = .idle ∧ s.env.commands = [0x0A, 0x00, 0xF4, 0x01, 0x00, 0x00] :: [] ∧
      decode [0x0A, 0x00, 0xF4, 0x01, 0x00, 0x00] = .ok (.cfgWrite 0x00 500) := by decide

/-- NoCommandTakenDuringWait, NoResendDuringWait and WaitKeepsConfiguration: a step of a wait, a message on offer. -/
theorem test_witness_step_of_a_wait :
    let s := offered [0x03] (scripted [] [[0x55]] [5] [true] (waiting .wDrain []))
    s.env.resetNow = false ∧ s.hs ≠ .idle ∧ ∃ t, step s = .next t ∧ t.acc = [0x55] ∧ t.env.commands = [[0x03]] := by
  exact ⟨rfl, by decide, _, rfl, rfl, rfl⟩

theorem test_witness_IllegalOpcodesRefused : 0x0B ≤ (0x0B : Byte).toNat ∧ 0x0B ≤ (0xFF : Byte).toNat := by decide

theorem test_witness_CrcProperties : 0 < [(0x00 : Byte)].length ∧ 7 < 8 ∧ flipBit [0x00] 0 7 = [0x80] := by decide

/-- Crc16Command and AccAppendCommand: a data field of the stated length, one that is not, and too few length bytes. -/
theorem test_witness_data_commands :
    [(0x31 : Byte)].length = (0x01 : Byte).toNat + 256 * (0x00 : Byte).toNat ∧
    ¬ [(0x31 : Byte)].length = (0x01 : Byte).toNat + 256 * (0x01 : Byte).toNat ∧ [(0x00 : Byte)].length < 2 := by
  decide

/-- ConstructCommand, WireFrameLayout and SendFrameCommand: payloads of 255 and 256 bytes. -/
theorem test_witness_payload_lengths :
    (List.replicate 255 (0 : Byte)).length ≤ 255 ∧ 255 < (List.replicate 256 (0 : Byte)).length ∧
    (List.replicate 256 (0 : Byte)).length = (0x00 : Byte).toNat + 256 * (0x01 : Byte).toNat ∧
    [(0x04 : Byte), 0x00].length < 3 := by decide +kernel

theorem test_witness_PureCommandsReadNoState :
    ∃ t t', exec (.construct 0x04 []) base = .next t ∧ exec (.construct 0x04 []) (waiting .wParse ackf) = .next t' :=
  ⟨_, _, rfl, rfl⟩

theorem test_witness_FirstMarkerIsLeast : IsMarker [0x00, 0x55, 0xAA] 1 ∧ firstMarker [0x00, 0x55, 0xAA] = some 1 := by
  unfold IsMarker
  decide

/-- ParseBounds: each of the three outcomes. -/
theorem test_witness_ParseBounds :
    (parse ackf).1 = .frame ⟨0x02, []⟩ ∧ (parse [0x55, 0xAA]).1 = .incomplete ∧ (parse [0x00]).1 = .none := by
  decide +kernel

/-- ParseDecidedByFirstCandidate: an incomplete candidate and a valid one, each behind a corrupt one. -/
theorem test_witness_ParseDecided_incomplete :
    DecidesAt [0x55, 0xAA, 0x00, 0x02, 0xA1, 0x18, 0x55, 0xAA] 6 ∧
    IsIncomplete [0x55, 0xAA, 0x00, 0x02, 0xA1, 0x18, 0x55, 0xAA] 6 := by
  unfold DecidesAt IsMarker IsCorrupt IsIncomplete CrcAgrees
  decide +kernel

theorem test_witness_ParseDecided_valid :
    DecidesAt ([0x55, 0xAA, 0x00, 0x02, 0xA1, 0x18] ++ ackf) 6 ∧
    IsValid ([0x55, 0xAA, 0x00, 0x02, 0xA1, 0x18] ++ ackf) 6 := by
  unfold DecidesAt IsValid IsMarker IsCorrupt IsIncomplete CrcAgrees
  decide +kernel

/-- The same, every candidate corrupt, with a last byte of 0x55. -/
theorem test_witness_ParseDecided_corrupt :
    (∀ i, IsMarker [0x55, 0xAA, 0x00, 0x02, 0x00, 0x55] i → IsCorrupt [0x55, 0xAA, 0x00, 0x02, 0x00, 0x55] i) ∧
    ∀ f, (parse [0x55, 0xAA, 0x00, 0x02, 0x00, 0x55]).1 ≠ .frame f := by
  refine ⟨fun i hi => ?_, fun f => ?_⟩
  · have hlt : i < 5 := by have := hi.1; simp at this; omega
    have all : ∀ j, j < 5 → IsMarker [0x55, 0xAA, 0x00, 0x02, 0x00, 0x55] j →
        IsCorrupt [0x55, 0xAA, 0x00, 0x02, 0x00, 0x55] j := by
      unfold IsMarker IsCorrupt IsIncomplete CrcAgrees
      decide +kernel
    exact all i hlt hi
  · rw [show parse [0x55, 0xAA, 0x00, 0x02, 0x00, 0x55] = (.incomplete, [0x55]) by decide +kernel]
    exact ParseOutcome.noConfusion

/-- AccAppendCommand: an append that just fits and one that just does not. -/
theorem test_witness_AccAppendCommand :
    (holding (List.replicate 260 0)).acc.length + [(0x01 : Byte)].length ≤ base.params.accCapacity ∧
    base.params.accCapacity < (holding (List.replicate 260 0)).acc.length + [(0x01 : Byte), 0x02].length := by
  decide +kernel

theorem test_witness_FramerDeframerRoundTrip : (List.replicate 255 (0 : Byte)).length ≤ 255 := by decide +kernel

/-- PartialDelivery at its first and its last byte. -/
theorem test_witness_PartialDelivery :
    base.params.InRange ∧ ([] : List Byte).length ≤ 255 ∧ (holding []).acc = (wire 0x02 []).take (1 - 1) ∧
    6 = (wire 0x02 []).length ∧ (holding (ackf.take 5)).acc = (wire 0x02 []).take (6 - 1) := by
  refine ⟨⟨by decide, by decide, by decide, by decide⟩, ?_⟩
  decide +kernel

/-- Resynchronisation: garbage with a corrupt candidate, and garbage with no marker pair. -/
theorem test_witness_Resynchronisation :
    (∀ i, i < 6 → IsMarker ([0x55, 0xAA, 0x00, 0x02, 0xA1, 0x18] ++ wire 0x04 []) i →
      IsCorrupt ([0x55, 0xAA, 0x00, 0x02, 0xA1, 0x18] ++ wire 0x04 []) i) ∧
    IsMarker ([0x55, 0xAA, 0x00, 0x02, 0xA1, 0x18] ++ wire 0x04 []) 0 := by
  unfold IsMarker IsCorrupt IsIncomplete CrcAgrees
  decide +kernel

theorem test_witness_Resynchronisation_noPair : ∀ i, ¬ IsMarker [0xAA, 0x55, 0x55] i := by
  rintro i ⟨h, h0, h1⟩
  match i with
  | 0 => exact absurd h0 (by decide)
  | 1 => exact absurd h1 (by decide)
  | n + 2 => simp at h; omega

/-- Resynchronisation: garbage whose candidate is incomplete, and garbage whose candidate is valid, decides. -/
theorem test_witness_Resynchronisation_incomplete :
    let A := [0x55, 0xAA, 0xFF, 0x04] ++ wire 0x04 [0x01, 0x02, 0x03] ++ wire 0x05 []
    DecidesAt A 0 ∧ IsIncomplete A 0 := by
  unfold DecidesAt IsMarker IsCorrupt IsIncomplete CrcAgrees
  decide +kernel

theorem test_witness_Resynchronisation_valid :
    let A := [0x55, 0xAA, 0x00, 0x09, 0xCA, 0xA6] ++ wire 0x04 [0x01, 0x02, 0x03] ++ wire 0x05 []
    DecidesAt A 0 ∧ IsValid A 0 := by
  unfold DecidesAt IsValid IsMarker IsCorrupt IsIncomplete CrcAgrees
  decide +kernel

/-- SingleBitFlips: a flip in the marker, in TYPE and in the last byte of ACKF. -/
theorem test_witness_SingleBitFlips :
    (0 < 6 + [(0 : Byte)].length ∧ 0 ≤ 1 ∧ 0 ≠ 2) ∧ (3 ≤ 3 ∧ 3 < 6 + ([] : List Byte).length) ∧
    (3 ≤ 5 ∧ 5 < 6 + ([] : List Byte).length) ∧ 7 < 8 := by decide

theorem test_witness_EnvironmentAnswers :
    let s := scripted [.ok] [[0x55]] [7] [false] base
    s.env.sends = .ok :: [] ∧ s.env.receives = [0x55] :: [] ∧ s.env.ticks = 7 :: [] ∧ s.env.sleeps = false :: [] ∧
      base.env.receives = [] := by decide

/-- SendFrameWaitAckCommand: both answers of the transport, and each side of the message formats. -/
theorem test_witness_SendFrameWaitAckCommand :
    (scripted [.fail] [] [] [] base).env.drawSend.1 = .fail ∧ (scripted [.ok] [] [] [] base).env.drawSend.1 = .ok ∧
    ((0x01 : Byte).toNat < 2 ∧ ([] : List Byte).length = (0x00 : Byte).toNat + 256 * (0x00 : Byte).toNat) ∧
    ¬ ((0x02 : Byte).toNat < 2) ∧ (List.replicate 7 (0 : Byte)).length < 8 ∧
    (List.replicate 255 (0 : Byte)).length ≤ 255 ∧ 255 < (List.replicate 256 (0 : Byte)).length := by decide +kernel

theorem test_witness_SentStepRecordsTick :
    let s := { base with hs := .sent, waitTimeout := some 200 }
    s.env.resetNow = false ∧ s.hs = .sent := by decide

/-- CheckStepTestsDeadline, one tick before the deadline and at it, across the wrap. -/
theorem test_witness_CheckStepTestsDeadline :
    let s := { scripted [] [] [0x00000053] [] (waiting .wCheck []) with
      startTick := some 0xFFFFFFF0, waitTimeout := some 100 }
    s.env.resetNow = false ∧ s.hs = .wCheck ∧ s.startTick = some 0xFFFFFFF0 ∧ s.waitTimeout = some 100 ∧
      (s.passReset.env.drawTick.1.toNat + 2 ^ 32 - (0xFFFFFFF0 : Word).toNat) % 2 ^ 32 < (100 : Word).toNat ∧
      ¬ (((0x00000054 : Word).toNat + 2 ^ 32 - (0xFFFFFFF0 : Word).toNat) % 2 ^ 32 < (100 : Word).toNat) := by decide

/-- DrainStepAppends: an answer of just what was asked, and one byte more. -/
theorem test_witness_DrainStepAppends :
    let s := scripted [] [[0x55]] [] [] (waiting .wDrain (List.replicate 260 0))
    let u := scripted [] [[0x55, 0xAA]] [] [] (waiting .wDrain (List.replicate 260 0))
    s.env.resetNow = false ∧ s.hs = .wDrain ∧ 1 = min s.params.rxChunk (s.params.accCapacity - s.acc.length) ∧
      (s.passReset.env.drawReceive 1).1.length ≤ 1 ∧ 1 < (u.passReset.env.drawReceive 1).1.length := by
  decide +kernel

/-- ParseStepActsOnType: an ACK with a payload, a NACK, and no frame with GOT set and clear. -/
theorem test_witness_ParseStepActsOnType :
    (waiting .wParse []).env.resetNow = false ∧ (waiting .wParse []).hs = .wParse ∧
    (parse [0x55, 0xAA, 0x01, 0x02, 0x00, 0xE6, 0xF4]).1 = .frame ⟨0x02, [0x00]⟩ ∧
    (parse [0x55, 0xAA, 0x00, 0x03, 0x80, 0x07]).1 = .frame ⟨0x03, []⟩ ∧
    (parse [0x55]).1 = .incomplete ∧ (waiting .wParse [0x55]).got = some false ∧
    { waiting .wParse [0x55] with got := some true }.got = some true := by decide +kernel

theorem test_witness_SleepStepWaits :
    (waiting .wSleep []).env.resetNow = false ∧ (waiting .wSleep []).hs = .wSleep ∧
    (scripted [] [] [] [false] (waiting .wSleep [])).passReset.env.drawSleepDone.1 = false ∧
    (scripted [] [] [] [true] (waiting .wSleep [])).passReset.env.drawSleepDone.1 = true := by decide

/-- HandshakeTransitions and TickRequestedOnlyWhenSampled: a next state out of each state of HS that has one. -/
theorem test_witness_HandshakeTransitions :
    (∃ t, step base = .next t) ∧ (∃ t, step { base with hs := .sent } = .next t) ∧
    (∃ t, step (scripted [] [] [0] [] (waiting .wCheck [])) = .next t) ∧
    (∃ t, step (scripted [] [[]] [] [] (waiting .wDrain [])) = .next t) ∧
    (∃ t, step (waiting .wParse []) = .next t) ∧
    (∃ t, step (scripted [] [] [] [true] (waiting .wSleep [])) = .next t) ∧ base.env.resetNow = false :=
  ⟨⟨_, rfl⟩, ⟨_, rfl⟩, ⟨_, rfl⟩, ⟨_, rfl⟩, ⟨_, rfl⟩, ⟨_, rfl⟩, rfl⟩

theorem test_witness_ZeroTimeoutEndsAtOnce :
    let s := { holding ackf with hs := .sent, waitTimeout := some 0 }
    NoReset s ∧ s.hs = .sent ∧ s.waitTimeout = some 0 := by
  exact ⟨by simp [NoReset, holding, base, State.reset, Env.unscripted], rfl, rfl⟩

theorem test_witness_AckedOnlyOnDecodedAck :
    ∃ t, step (waiting .wParse ackf) = .next t ∧
      PortEvent.response (0x04 :: [0x01]) ∈ newEvents (waiting .wParse ackf) t := by
  obtain ⟨t, ht, -, -, he⟩ := next_of_look
    (show look (waiting .wParse ackf) = some ([], .idle, [.response [0x04, 0x01]]) by decide +kernel)
  exact ⟨t, ht, by rw [he]; decide⟩

theorem test_witness_TimedOutOnlyAtDeadline :
    ∃ t, step (scripted [] [] [200] [] (waiting .wCheck [])) = .next t ∧
      PortEvent.response (0x10 :: [0x00]) ∈ newEvents (scripted [] [] [200] [] (waiting .wCheck [])) t :=
  ⟨_, rfl, by decide⟩

/-- WaitEndsOnlyThreeWays: a wait that ends with each of the two responses. -/
theorem test_witness_WaitEndsOnlyThreeWays :
    (∃ t, step (waiting .wParse ackf) = .next t ∧ t.hs = .idle) ∧
    ∃ t, step (scripted [] [] [200] [] (waiting .wCheck ackf)) = .next t ∧ t.hs = .idle := by
  obtain ⟨t, ht, -, hi, -⟩ := next_of_look
    (show look (waiting .wParse ackf) = some ([], .idle, [.response [0x04, 0x01]]) by decide +kernel)
  exact ⟨⟨t, ht, hi⟩, _, rfl, by decide⟩

/-- AckBehindOtherFramesEndsWait: a NACK, then an ACK with a payload, then a lone 0x55. -/
theorem test_witness_AckBehindOtherFramesEndsWait :
    let s := waiting .wParse ([0x55, 0xAA, 0x00, 0x03, 0x80, 0x07] ++ [0x55, 0xAA, 0x01, 0x02, 0x00, 0xE6, 0xF4] ++ [0x55])
    NoReset s ∧ s.hs = .wParse ∧ (∀ f ∈ [(⟨0x03, []⟩ : Frame)], f.type ≠ 0x02 ∧ f.payload.length ≤ 255) ∧
      [(0x00 : Byte)].length ≤ 255 ∧ s.acc = wires [⟨0x03, []⟩] ++ wire 0x02 [0x00] ++ [0x55] := by
  refine ⟨by simp [NoReset, waiting, base, State.reset, Env.unscripted], ?_⟩
  decide +kernel

/-- SilentWaitTimesOut with one iteration before the deadline, and with none. -/
theorem test_witness_SilentWaitTimesOut :
    let s := scripted [] [[]] [199, 200] [true, true] (waiting .wCheck [0x55])
    NoReset s ∧ s.hs = .wCheck ∧ s.sleeping = false ∧ s.startTick = some 0 ∧ s.waitTimeout = some 200 ∧
      (∀ f, (parse s.acc).1 ≠ .frame f) ∧ ScriptReachesDeadline s 0 200 1 ∧
      (∀ j, j < 1 → ∃ t, s.env.ticks[j]? = some t ∧ beforeDeadline t 0 200 = true) ∧
      1 ≤ s.env.receives.length ∧ ∀ bs ∈ s.env.receives, bs = [] := by
  refine ⟨by simp [NoReset, scripted, waiting, base, State.reset, Env.unscripted], rfl, rfl, rfl, rfl, fun f => ?_,
    ⟨by simp [scripted], by decide, ⟨200, rfl, by decide⟩⟩, fun j hj => ?_, by decide, by simp [scripted]⟩
  · rw [show parse _ = (.incomplete, [0x55]) by decide +kernel]
    exact ParseOutcome.noConfusion
  · obtain rfl : j = 0 := by omega
    exact ⟨199, rfl, by decide⟩

theorem test_witness_SilentWaitTimesOut_atOnce :
    ScriptReachesDeadline (scripted [] [] [200] [true] (waiting .wCheck [])) 0 200 0 :=
  ⟨by simp [scripted], by decide, ⟨200, rfl, by decide⟩⟩

/-! One infinite run, for the statements over runs: a wait of 10 ms on a silent line, one iteration long. Step 0 accepts
the command, step 1 samples tick 0, step 2 checks at 0, steps 3 to 5 drain, parse and sleep, step 6 checks at 10 and
answers TIMED_OUT; from step 7 on the block stays in IDLE with no message offered. -/

/-- The next state, where there is one. -/
def advance (s : State) : State :=
  match step s with
  | .next t => t
  | .fault _ => s
  | .refused _ => s

/-- The run. -/
def waitRun : Nat → State
  | 0 => offered [0x08, 0x00, 0x04, 0x0A, 0x00, 0x00, 0x00, 0x00, 0x00] (scripted [.ok] [[]] [0, 0, 10] [true] base)
  | n + 1 => advance (waitRun n)

/-- Real time when step `n` of the run is taken. -/
def waitClock (n : Nat) : Nat :=
  if n ≤ 5 then 0 else n + 4

/-- The step taken in `s` is answered by a next state. -/
def goesOn (s : State) : Bool :=
  match step s with
  | .next _ => true
  | .fault _ => false
  | .refused _ => false

theorem step_of_goesOn {s : State} (h : goesOn s = true) : step s = .next (advance s) := by
  unfold goesOn at h
  unfold advance
  split at h <;> simp_all

theorem waitRun_idle (n : Nat) : waitRun (7 + n) = waitRun 7 := by
  induction n with
  | zero => rfl
  | succ n ih =>
    rw [Nat.add_succ, waitRun, ih]
    decide +kernel

theorem waitRun_late {n : Nat} (h : 7 ≤ n) : waitRun n = waitRun 7 := by
  obtain ⟨k, rfl⟩ := Nat.exists_eq_add_of_le h
  exact waitRun_idle k

theorem waitRun_isRun : IsRun waitRun := by
  intro n
  refine step_of_goesOn ?_
  by_cases h : n < 7
  · exact (show ∀ n, n < 7 → goesOn (waitRun n) = true by decide +kernel) n h
  · rw [waitRun_late (by omega)]
    decide +kernel

theorem waitRun_samples_early {n : Nat} (h : (waitRun n).Samples) : n < 7 := by
  by_contra hn
  rw [waitRun_late (by omega)] at h
  exact absurd h.2 (by decide +kernel)

theorem waitRun_TA1 : TA1 0 waitClock waitRun := by
  refine ⟨fun n => ?_, fun n hn => ?_⟩
  · unfold waitClock
    split <;> split <;> omega
  · exact (show ∀ n, n < 7 → (waitRun n).hs = .sent ∨ (waitRun n).hs = .wCheck →
      (waitRun n).sample = BitVec.ofNat 32 (0 + waitClock n) by decide +kernel) n (waitRun_samples_early hn) hn.2

theorem waitRun_TA2 : TA2 waitClock waitRun := by
  refine ⟨fun bound => ⟨bound + 6, ?_⟩, fun n _ => ⟨n + 7, by omega, ?_⟩⟩
  · unfold waitClock
    split <;> omega
  · rw [waitRun_late (by omega)]
    decide +kernel

theorem waitRun_TA3 : TA3 waitClock waitRun := by
  intro i j timeout _ _ hj _ hc ht
  have late := waitRun_samples_early hj
  have clock : waitClock j ≤ 10 := by
    unfold waitClock
    split <;> omega
  have held := (show ∀ j, j < 7 → (waitRun j).hs = .wCheck → (waitRun j).waitTimeout = some 10 by decide +kernel) j late hc
  obtain rfl : timeout = 10 := Option.some.inj (ht.symm.trans held)
  have : (10 : Word).toNat = 10 := rfl
  omega

/-- WaitTerminates: the run, with its command accepted at step 0. -/
theorem test_witness_WaitTerminates :
    IsRun waitRun ∧ TA1 0 waitClock waitRun ∧ TA2 waitClock waitRun ∧ TA3 waitClock waitRun ∧
    (waitRun 0).env.resetNow = false ∧ (waitRun 0).hs = .idle ∧
    (waitRun 0).env.commands = [[0x08, 0x00, 0x04, 0x0A, 0x00, 0x00, 0x00, 0x00, 0x00]] ∧
    decode [0x08, 0x00, 0x04, 0x0A, 0x00, 0x00, 0x00, 0x00, 0x00] = .ok (.sendFrameWaitAck false 0x04 10 []) :=
  ⟨waitRun_isRun, waitRun_TA1, waitRun_TA2, waitRun_TA3, by decide⟩

/-- The same run ends at step 6, at the deadline. -/
theorem test_waitRun_times_out :
    (waitRun 7).hs = .idle ∧ newEvents (waitRun 6) (waitRun 7) = [.nowMs 10, .response [0x10, 0x00]] := by
  decide +kernel

/-- ElapsedReadsRealTime: the SENT sample of the run at step 1, its last check at step 6, at the deadline. -/
theorem test_witness_ElapsedReadsRealTime :
    IsRun waitRun ∧ TA1 0 waitClock waitRun ∧ TA3 waitClock waitRun ∧
    (waitRun 1).Samples ∧ (waitRun 1).hs = .sent ∧ (waitRun 6).Samples ∧ (waitRun 6).hs = .wCheck ∧
    ∀ k, 1 < k → k < 6 → (waitRun k).hs ≠ .idle := by
  refine ⟨waitRun_isRun, waitRun_TA1, waitRun_TA3, ?_⟩
  unfold State.Samples
  refine ⟨by decide +kernel, by decide +kernel, by decide +kernel, by decide +kernel, fun k _ hk => ?_⟩
  exact (show ∀ k, k < 6 → 1 < k → (waitRun k).hs ≠ .idle by decide +kernel) k hk ‹_›

/-- TimeoutLowerBound: the sample at the deadline, across the wrap. -/
theorem test_witness_TimeoutLowerBound :
    let s := { scripted [] [] [0x00000054] [] (waiting .wCheck []) with
      startTick := some (BitVec.ofNat 32 (0xFFFFFFF0 + 0)), waitTimeout := some 100 }
    s.env.resetNow = false ∧ s.hs = .wCheck ∧ s.passReset.env.drawTick.1 = BitVec.ofNat 32 (0xFFFFFFF0 + 100) ∧
      ∃ t, step s = .next t ∧ t.hs = .idle :=
  ⟨rfl, rfl, by decide, _, rfl, by decide⟩

/-- ParseLeavesRoomToDrain: a parse step that finds no frame, from a state that meets the invariant. -/
theorem test_witness_ParseLeavesRoomToDrain :
    (waiting .wParse (List.replicate 261 0)).Inv ∧ (waiting .wParse [0x55]).Inv ∧
    ∃ t, step (waiting .wParse [0x55]) = .next t ∧ t.hs = .wSleep := by
  refine ⟨⟨⟨by decide, by decide, by decide, by decide⟩, by decide +kernel, ?_, fun _ => rfl, fun _ _ => rfl,
    fun _ => rfl, fun _ => rfl, fun h => absurd h (by decide)⟩,
    ⟨⟨by decide, by decide, by decide, by decide⟩, by decide, by decide, fun _ => rfl, fun _ _ => rfl,
    fun _ => rfl, fun _ => rfl, fun h => absurd h (by decide)⟩, _, rfl, by decide +kernel⟩
  exact ⟨HandshakeState.noConfusion, HandshakeState.noConfusion⟩

/-- CfgReadCommand and CfgWriteCommand: field lists of the wrong length, one byte short and one over. -/
theorem test_witness_cfg_lengths :
    ([] : List Byte).length ≠ 1 ∧ [(0 : Byte), 0].length ≠ 1 ∧ (List.replicate 4 (0 : Byte)).length ≠ 5 ∧
    (List.replicate 6 (0 : Byte)).length ≠ 5 := by decide

theorem test_witness_OnlyDefinedStatusCodes :
    ∃ t, step (offered [] base) = .next t ∧ PortEvent.response [0x16] ∈ newEvents (offered [] base) t :=
  ⟨_, rfl, by decide⟩

theorem test_witness_RefusedCommandsChangeNothing :
    ∃ t, exec (.cfgWrite 0x02 300) base = .next t ∧
      PortEvent.response (0x15 :: []) ∈ newEvents base t ∧ 0x12 ≤ (0x15 : Byte).toNat ∧ (0x15 : Byte).toNat ≤ 0x16 :=
  ⟨_, rfl, by decide⟩

theorem test_witness_ResetFromAnyState :
    { waiting .wSleep ackf with env := { base.env with resets := [true] } }.env.resetNow = true := by decide

/-- StepKeepsInvariant and InvariantStatesStep: a state whose drain keeps the contract. -/
theorem test_witness_invariant :
    let s := scripted [] [[]] [] [] (waiting .wDrain [0x00])
    s.Inv ∧ (s.hs = .wDrain → ReceiveInContract s) ∧ ∃ t, step s = .next t := by
  refine ⟨⟨⟨by decide, by decide, by decide, by decide⟩, by decide, by decide, fun _ => rfl, fun _ _ => rfl,
    fun h => absurd h (by decide), fun h => absurd h (by decide), fun h => absurd h (by decide)⟩, fun _ => ?_, _, rfl⟩
  unfold ReceiveInContract
  decide

/-- StepKeepsPortsInOrder: a record in order with a command in progress. -/
theorem test_witness_StepKeepsPortsInOrder :
    let s := { waiting .wParse ackf with trace := [.reset, .command [0x06], .response [0x00], .command [0x08]] }
    s.PortsInOrder ∧ ∃ t, step s = .next t ∧ t.hs = .idle := by
  refine ⟨by unfold State.PortsInOrder; decide, ?_⟩
  obtain ⟨t, ht, -, hi, -⟩ := next_of_look
    (s := { waiting .wParse ackf with trace := [.reset, .command [0x06], .response [0x00], .command [0x08]] })
    (a := []) (h := .idle) (es := [.response [0x04, 0x01]]) (by decide +kernel)
  exact ⟨t, ht, hi⟩

end Sys2Proof.Tests
end

section
/-! Proofs of the family 10_state.md: what a read of each configuration register returns in any state, and the
reset values of R34. -/

namespace Sys2Proof.Machine

/-! ## Reading one configuration register (10_state.md R23 to R27) -/

@[simp] theorem cfgRead_ackTimeout (s : State) : cfgRead 0x00 s = some s.ackTimeout := rfl
@[simp] theorem cfgRead_pollInterval (s : State) : cfgRead 0x01 s = some s.pollInterval := rfl
@[simp] theorem cfgRead_maxPayload (s : State) : cfgRead 0x02 s = some 255 := rfl
@[simp] theorem cfgRead_accCount (s : State) : cfgRead 0x03 s = some (BitVec.ofNat 32 s.acc.length) := rfl

/-! ## The command port and the code of IDLE (10_state.md R18, R29) -/

@[simp] theorem HandshakeState.code_idle : HandshakeState.code .idle = 0 := rfl

theorem State.portReady_iff (s : State) : s.portReady = true ↔ s.hs = .idle := by
  simp [State.portReady]

/-! ## Reset -/

/-- Nothing has crossed the response port at reset (10_state.md R34: no response pending). -/
theorem State.response_notMem_reset_trace (m : List Byte) : PortEvent.response m ∉ State.reset.trace := by
  simp

/-- Settles O54, row by row of R34's table: a register read is the register's own rule at the reset state, and the
command port is ready because HS is IDLE. -/
theorem resetValues : Obligations.ResetValues := by
  unfold Obligations.ResetValues
  have hcode : State.reset.hs.code = 0 := by rw [State.reset_hs, HandshakeState.code_idle]
  have hack : cfgRead 0x00 State.reset = some 200 := by rw [cfgRead_ackTimeout, State.reset_ackTimeout]
  have hpoll : cfgRead 0x01 State.reset = some 10 := by rw [cfgRead_pollInterval, State.reset_pollInterval]
  have hcount : cfgRead 0x03 State.reset = some 0 := by
    rw [cfgRead_accCount, State.reset_acc, List.length_nil]; rfl
  have hready : State.reset.portReady = true := (State.portReady_iff _).2 State.reset_hs
  exact ⟨State.reset_acc, State.reset_hs, hcode, State.reset_startTick, State.reset_waitTimeout, State.reset_got,
    hack, hpoll, cfgRead_maxPayload _, hcount, hready, State.response_notMem_reset_trace⟩

end Sys2Proof.Machine
end

section
/-! Proofs of the family 30_encoding.md: the layout of a wire frame (R50), read off the bytes its CRC covers. -/

namespace Sys2Proof.Machine

/-! ## The bytes the CRC covers, and the frame around them (30_encoding.md R50, 41_framer.md R71) -/

theorem frameBody_eq (t : Byte) (p : List Byte) :
    frameBody t p = 0x55 :: 0xAA :: BitVec.ofNat 8 p.length :: t :: p := rfl

@[simp] theorem frameBody_length (t : Byte) (p : List Byte) : (frameBody t p).length = 4 + p.length := by
  simp only [frameBody_eq, List.length_cons]
  omega

theorem wire_eq_frameBody_append (t : Byte) (p : List Byte) :
    wire t p = frameBody t p ++ le16 (crc16 (frameBody t p)) := rfl

@[simp] theorem wire_length (t : Byte) (p : List Byte) : (wire t p).length = 6 + p.length := by
  rw [wire_eq_frameBody_append, List.length_append, frameBody_length, le16_length]
  omega

@[simp] theorem wire_take_body (t : Byte) (p : List Byte) : (wire t p).take (4 + p.length) = frameBody t p := by
  rw [wire_eq_frameBody_append, List.take_left' (frameBody_length t p)]

/-- Settles O12: the first `4 + LEN` bytes of a frame are its body, so the CRC behind the body is the CRC of every
byte before it. The equations need no bound on the payload; the bound is what lets LEN hold its length. -/
theorem wireFrameLayout : Obligations.WireFrameLayout := by
  unfold Obligations.WireFrameLayout
  intro t p _
  refine ⟨wire_length t p, ?_⟩
  rw [wire_take_body, ← frameBody_eq]
  exact wire_eq_frameBody_append t p

end Sys2Proof.Machine
end

section
/-! Proofs of the family 40_crc.md: eight rounds in closed form (R67, R68), the errors the CRC detects (R70), and the
CRC16 command (R69). -/

namespace Sys2Proof.Machine

/-! ## Four and eight rounds in closed form (40_crc.md R67) -/

/-- The polynomial's highest place is 12, so what a round feeds back is shifted out again only four rounds later: four
rounds feed back the top nibble as it stands, at the polynomial's places 12, 5 and 0. -/
theorem crcRounds_four (c : Half) :
    crcRounds 4 c = (c <<< 4) ^^^ (c >>> 12 <<< 12) ^^^ (c >>> 12 <<< 5) ^^^ (c >>> 12) := by
  apply BitVec.eq_of_getLsbD_eq
  intro k hk
  interval_cases k <;> simp [crcRounds, crcRound_bit, crcPoly, -BitVec.getLsbD_eq_getElem]

/-- What eight rounds feed back: the top byte, and in its low half the top nibble once more, which the first four
rounds XOR into the nibble below it. -/
def crcFeedback (c : Half) : Half :=
  c >>> 8 ^^^ c >>> 12

theorem crcRounds_eight (c : Half) :
    crcRounds 8 c = (c <<< 8) ^^^ (crcFeedback c <<< 12) ^^^ (crcFeedback c <<< 5) ^^^ crcFeedback c := by
  have h : crcRounds 8 c = crcRounds 4 (crcRounds 4 c) := rfl
  rw [h, crcRounds_four, crcRounds_four]
  apply BitVec.eq_of_getLsbD_eq
  intro k hk
  interval_cases k <;> simp [crcFeedback, -BitVec.getLsbD_eq_getElem, Bool.xor_comm, Bool.xor_left_comm]

/-- The feedback of a byte update is the rule's byte `x`. -/
theorem crcFeedback_xor_byte (crc : Half) (b : Byte) :
    crcFeedback (crc ^^^ b.setWidth 16 <<< 8) =
      ((crc.extractLsb' 8 8 ^^^ b) ^^^ (crc.extractLsb' 8 8 ^^^ b) >>> 4).setWidth 16 := by
  apply BitVec.eq_of_getLsbD_eq
  intro k hk
  interval_cases k <;> simp [crcFeedback, -BitVec.getLsbD_eq_getElem]

/-- The byte of an update sits in the high half, and eight rounds shift it out. -/
theorem byte_shiftLeft_out (b : Byte) : b.setWidth 16 <<< 8 <<< 8 = 0#16 := by
  rw [← BitVec.shiftLeft_add]
  simp

/-- Settles O8, from the closed form of eight rounds: the feedback is `x`, and of the shifted value only the old CRC's
low byte is left. -/
theorem crcByteParallelForm : Obligations.CrcByteParallelForm := by
  unfold Obligations.CrcByteParallelForm
  intro crc b
  dsimp only
  rw [crcUpdate, crcRounds_eight, crcFeedback_xor_byte, BitVec.shiftLeft_xor_distrib, byte_shiftLeft_out,
    BitVec.xor_zero]

/-! ## Bit equations and linearity (40_crc.md R68) -/

theorem crcUpdate_xor (c c' : Half) (d d' : Byte) :
    crcUpdate (c ^^^ c') (d ^^^ d') = crcUpdate c d ^^^ crcUpdate c' d' := by
  have h : (c ^^^ c') ^^^ ((d ^^^ d').setWidth 16 <<< 8)
      = (c ^^^ (d.setWidth 16 <<< 8)) ^^^ (c' ^^^ (d'.setWidth 16 <<< 8)) := by
    rw [BitVec.setWidth_xor, BitVec.shiftLeft_xor_distrib]
    ac_rfl
  rw [crcUpdate, h, crcRounds_xor, ← crcUpdate, ← crcUpdate]

/-- Settles O9: each equation is one bit of the byte-parallel form, and linearity is that of the rounds. -/
theorem crcBitEquations : Obligations.CrcBitEquations := by
  unfold Obligations.CrcBitEquations
  refine ⟨fun c d => ?_, crcUpdate_xor⟩
  rw [crcByteParallelForm c d]
  refine ⟨?_, ?_, ?_, ?_, ?_, ?_, ?_, ?_, ?_, ?_, ?_, ?_, ?_, ?_, ?_, ?_⟩ <;>
    simp [-BitVec.getLsbD_eq_getElem, Bool.xor_comm, Bool.xor_left_comm]

/-! ## The errors the CRC detects (40_crc.md R70) -/

/-- A change of any one byte changes the CRC: the running CRCs differ behind the byte, and every later update is
injective in the running CRC. -/
theorem crc16_set_ne {u : List Byte} {k : Nat} (hk : k < u.length) {a : Byte} (ha : a ≠ u[k]) :
    crc16 u ≠ crc16 (u.set k a) := by
  have crc16_set (v : Byte) : crc16 (u.set k v) =
      (u.drop (k + 1)).foldl crcUpdate (crcUpdate ((u.take k).foldl crcUpdate crcInit) v) := by
    rw [List.set_eq_take_append_cons_drop, if_pos hk, crc16, List.foldl_append, List.foldl_cons]
  intro h
  rw [← List.set_getElem_self hk, crc16_set, List.set_set, crc16_set] at h
  exact ha (crcUpdate_byte_injective (crcFold_injective _ h)).symm

theorem bitMask_ne_zero {b : Nat} (hb : b < 8) : BitVec.ofNat 8 (2 ^ b) ≠ 0 := by
  interval_cases b <;> decide

theorem crc16_flipBit_ne {u : List Byte} {k b : Nat} (hk : k < u.length) (hb : b < 8) :
    crc16 u ≠ crc16 (flipBit u k b) := by
  refine crc16_set_ne hk fun h => bitMask_ne_zero hb ?_
  rw [List.getD_eq_getElem _ _ hk] at h
  simpa using h

/-- No byte's update is the identity: the byte 00 moves CRC_INIT, and any other moves 0, which 00 keeps. -/
theorem crcUpdate_ne_self (b : Byte) : ∃ c : Half, crcUpdate c b ≠ c := by
  by_cases hb : b = 0
  · exact ⟨crcInit, by rw [hb]; decide⟩
  · have zero_keeps : crcUpdate 0 0 = 0 := by decide
    exact ⟨0, fun h => hb (crcUpdate_byte_injective (h.trans zero_keeps.symm))⟩

/-- Settles O10: the three sample CRCs are computed; a flipped bit changes its byte, and so the CRC. -/
theorem crcProperties : Obligations.CrcProperties := by
  unfold Obligations.CrcProperties
  exact ⟨rfl, by decide +kernel, fun _ _ _ => crc16_flipBit_ne, crcUpdate_ne_self, by decide⟩

end Sys2Proof.Machine

/-! ## Messages with one data field (30_encoding.md R57, R62) -/

namespace Sys2Proof

theorem decode_crc16 (fields : List Byte) : decode (0x01 :: fields) = decodeData .crc16 fields := rfl

theorem decodeData_of_eq (build : List Byte → Instr) {n0 n1 : Byte} {data : List Byte}
    (h : data.length = n0.toNat + 256 * n1.toNat) : decodeData build (n0 :: n1 :: data) = .ok (build data) :=
  exactBody_of_eq _ (by rw [h, u16le_toNat])

theorem decodeData_of_ne (build : List Byte → Instr) {n0 n1 : Byte} {data : List Byte}
    (h : data.length ≠ n0.toNat + 256 * n1.toNat) :
    decodeData build (n0 :: n1 :: data) = .rejected .wrongLength :=
  exactBody_of_ne _ (by rwa [u16le_toNat])

theorem decodeData_of_short (build : List Byte → Instr) {fields : List Byte} (h : fields.length < 2) :
    decodeData build fields = .rejected .shorterThanFixedPart := by
  match fields, h with
  | [], _ => rfl
  | [_], _ => rfl

end Sys2Proof

/-! ## The CRC16 command (40_crc.md R69) -/

namespace Sys2Proof.Machine

/-- What the decoder rejects, the command port answers MALFORMED_CMD (45_config.md R121). -/
theorem refusedAsMalformed_of_rejected {m : List Byte} {why : Malformed} (h : decode m = .rejected why) :
    RefusedAsMalformed m := by
  intro s
  simp [accept, h, refuseMalformed, respond, State.record, Status.code]

theorem exec_crc16 (data : List Byte) (s : State) :
    exec (.crc16 data) s = .next (respond .ok (le16 (crc16 data)) s) := rfl

/-- Settles O11: the data field has its stated length, another one, or no complete length field before it; run, the
command does nothing but respond. -/
theorem crc16Command : Obligations.Crc16Command := by
  unfold Obligations.Crc16Command
  refine ⟨fun n0 n1 data => ?_, fun fields h => ?_, exec_crc16⟩
  · split
    next h => rw [decode_crc16, decodeData_of_eq _ h]
    next h => exact refusedAsMalformed_of_rejected (by rw [decode_crc16, decodeData_of_ne _ h])
  · exact refusedAsMalformed_of_rejected (by rw [decode_crc16, decodeData_of_short _ h])

end Sys2Proof.Machine
end

section
/-! Proofs of the family 41_framer.md: the CONSTRUCT command (R72), over the decoding of a message with a TYPE and a
payload (30_encoding.md R57, R62), which SEND_FRAME shares. -/

namespace Sys2Proof

/-! ## Messages with a TYPE and a payload (30_encoding.md R57, R62) -/

theorem decode_construct (fields : List Byte) : decode (0x02 :: fields) = decodeFrame .construct fields := rfl

theorem decodeFrame_of_eq (build : Byte → List Byte → Instr) (type : Byte) {l0 l1 : Byte} {payload : List Byte}
    (h : payload.length = l0.toNat + 256 * l1.toNat) :
    decodeFrame build (type :: l0 :: l1 :: payload) = .ok (build type payload) :=
  exactBody_of_eq _ (by rw [h, u16le_toNat])

theorem decodeFrame_of_ne (build : Byte → List Byte → Instr) (type : Byte) {l0 l1 : Byte} {payload : List Byte}
    (h : payload.length ≠ l0.toNat + 256 * l1.toNat) :
    decodeFrame build (type :: l0 :: l1 :: payload) = .rejected .wrongLength :=
  exactBody_of_ne _ (by rwa [u16le_toNat])

theorem decodeFrame_of_short (build : Byte → List Byte → Instr) {fields : List Byte} (h : fields.length < 3) :
    decodeFrame build fields = .rejected .shorterThanFixedPart := by
  match fields, h with
  | [], _ => rfl
  | [_], _ => rfl
  | [_, _], _ => rfl

/-! ## The length field of a frame in a response (20_memory.md R39) -/

/-- The two bytes of a number's low half, from the number itself. -/
theorem le16_ofNat (n : Nat) : le16 (BitVec.ofNat 16 n) = [BitVec.ofNat 8 n, BitVec.ofNat 8 (n / 256)] := by
  have low : (BitVec.ofNat 16 n).extractLsb' 0 8 = BitVec.ofNat 8 n := by
    apply BitVec.eq_of_toNat_eq
    simp only [BitVec.extractLsb'_toNat, BitVec.toNat_ofNat, Nat.shiftRight_eq_div_pow]
    omega
  have high : (BitVec.ofNat 16 n).extractLsb' 8 8 = BitVec.ofNat 8 (n / 256) := by
    apply BitVec.eq_of_toNat_eq
    simp only [BitVec.extractLsb'_toNat, BitVec.toNat_ofNat, Nat.shiftRight_eq_div_pow]
    omega
  rw [le16, low, high]

end Sys2Proof

namespace Sys2Proof.Machine

theorem length16_wire (t : Byte) (p : List Byte) :
    length16 (wire t p) = [BitVec.ofNat 8 (6 + p.length), BitVec.ofNat 8 ((6 + p.length) / 256)] := by
  rw [length16, wire_length, le16_ofNat]

/-! ## The CONSTRUCT command (41_framer.md R72) -/

theorem exec_construct_of_le (t : Byte) {p : List Byte} (h : p.length ≤ 255) (s : State) :
    exec (.construct t p) s = .next (respond .ok (length16 (wire t p) ++ wire t p) s) :=
  congrArg Host.Outcome.next (if_neg (Nat.not_lt.2 h))

theorem exec_construct_of_gt (t : Byte) {p : List Byte} (h : 255 < p.length) (s : State) :
    exec (.construct t p) s = .next (respond .payloadTooLarge [] s) :=
  congrArg Host.Outcome.next (if_pos h)

/-- Settles O13: the payload has its stated length, another one, or no complete length field before it; run, the
command does nothing but respond, with the frame and its length or with the refusal, as the payload's length says. -/
theorem constructCommand : Obligations.ConstructCommand := by
  unfold Obligations.ConstructCommand
  refine ⟨fun t l0 l1 p => ?_, fun fields h => ?_, fun t p s => ?_⟩
  · split
    next h => rw [decode_construct, decodeFrame_of_eq _ _ h]
    next h => exact refusedAsMalformed_of_rejected (by rw [decode_construct, decodeFrame_of_ne _ _ h])
  · exact refusedAsMalformed_of_rejected (by rw [decode_construct, decodeFrame_of_short _ h])
  · split
    next h => rw [exec_construct_of_le t h, length16_wire]; rfl
    next h => rw [exec_construct_of_gt t (Nat.lt_of_not_le h)]; rfl

end Sys2Proof.Machine
end

section
/-! Proofs of the family 42_deframer.md: `firstMarker` (R74), one pass of the loop (R75), `parse` from the front of a
buffer and its bounds (R82, R84), frames on the wire, whole, flipped, behind garbage or cut short (R87 to R90), and the
commands PARSE and ACC_APPEND (R85, R86). -/

namespace Sys2Proof.Machine

/-! ## Marker positions, and `firstMarker` (42_deframer.md R74) -/

theorem not_isMarker_nil (i : Nat) : ¬ IsMarker [] i := by
  simp [IsMarker]

/-- The byte after a marker position is 0xAA, so it is no marker position itself. -/
theorem not_isMarker_succ_of_isMarker {A : List Byte} {i : Nat} (h : IsMarker A i) : ¬ IsMarker A (i + 1) := by
  obtain ⟨-, -, hAA⟩ := h
  rintro ⟨-, h55, -⟩
  exact absurd (h55.symm.trans hAA) (by decide)

theorem firstMarker_of_isMarker {A : List Byte} (h : IsMarker A 0) : firstMarker A = some 0 := by
  cases A with
  | nil => exact absurd h (not_isMarker_nil 0)
  | cons a B => rw [firstMarker, if_pos ((startsWithMarker_iff _).2 h)]

theorem firstMarker_of_not_isMarker {a : Byte} {B : List Byte} (h : ¬ IsMarker (a :: B) 0) :
    firstMarker (a :: B) = (firstMarker B).map (· + 1) := by
  rw [firstMarker, if_neg (mt (startsWithMarker_iff _).1 h)]

/-- No marker position lies before the one `firstMarker` gives; where it gives none, there is none at all. -/
theorem not_isMarker_before_firstMarker {A : List Byte} {j : Nat} (h : ∀ i, firstMarker A = some i → j < i) :
    ¬ IsMarker A j := by
  induction A generalizing j with
  | nil => exact not_isMarker_nil j
  | cons a B ih =>
    by_cases h0 : IsMarker (a :: B) 0
    · exact absurd (h 0 (firstMarker_of_isMarker h0)) (Nat.not_lt_zero j)
    · cases j with
      | zero => exact h0
      | succ j =>
        rw [isMarker_succ]
        refine ih fun i hi => Nat.lt_of_succ_lt_succ (h (i + 1) ?_)
        rw [firstMarker_of_not_isMarker h0, hi, Option.map_some]

theorem firstMarker_eq_some_iff {A : List Byte} {i : Nat} :
    firstMarker A = some i ↔ IsMarker A i ∧ ∀ j, j < i → ¬ IsMarker A j := by
  have before {k j : Nat} (hk : firstMarker A = some k) (hj : j < k) : ¬ IsMarker A j :=
    not_isMarker_before_firstMarker fun l hl => by rwa [← Option.some.inj (hk.symm.trans hl)]
  refine ⟨fun h => ⟨isMarker_of_firstMarker h, fun j => before h⟩, fun ⟨hi, least⟩ => ?_⟩
  cases hf : firstMarker A with
  | none => exact absurd hi (not_isMarker_before_firstMarker (by simp [hf]))
  | some k =>
    have hki : ¬ k < i := fun hlt => least k hlt (isMarker_of_firstMarker hf)
    have hik : ¬ i < k := fun hlt => before hf hlt hi
    rw [Nat.le_antisymm (Nat.not_lt.1 hik) (Nat.not_lt.1 hki)]

theorem firstMarker_eq_none_iff {A : List Byte} : firstMarker A = none ↔ ∀ i, ¬ IsMarker A i := by
  refine ⟨fun h i => not_isMarker_before_firstMarker (by simp [h]), fun h => ?_⟩
  exact Option.eq_none_iff_forall_ne_some.2 fun i hi => h i (isMarker_of_firstMarker hi)

/-- Settles O15: `firstMarker` recurses along the buffer, and answers at the first marker it comes to. -/
theorem firstMarkerIsLeast : Obligations.FirstMarkerIsLeast := by
  unfold Obligations.FirstMarkerIsLeast
  exact fun A => ⟨fun _ => firstMarker_eq_some_iff, firstMarker_eq_none_iff, fun _ => not_isMarker_succ_of_isMarker⟩

/-! ## One pass of the loop (42_deframer.md R75) -/

/-- What the rest of a pass does with the candidate at the front of `C`, going on with `parse` itself. -/
def parseCandidate (C : List Byte) : ParseOutcome × List Byte :=
  if C.length < 4 then (.incomplete, C)
  else if C.length < 6 + candidateLen C then (.incomplete, C)
  else if candidateCrcMatches C then
    (.frame ⟨candidateType C, candidatePayload C⟩, C.drop (6 + candidateLen C))
  else parse (C.drop 1)

theorem parse_of_firstMarker_none {A : List Byte} (h : firstMarker A = none) :
    parse A = if A.getLast? = some 0x55 then (.incomplete, [0x55]) else (.none, []) := by
  rw [parse, parseLoop, h]
  rfl

/-- The bytes before the first marker are discarded, whatever becomes of the candidate (R76); the passes that are left
suffice for what follows it. -/
theorem parse_of_firstMarker_some {A : List Byte} {m : Nat} (h : firstMarker A = some m) :
    parse A = parseCandidate (A.drop m) := by
  have hm := firstMarker_lt h
  have goes_on : parseLoop A.length ((A.drop m).drop 1) = parse ((A.drop m).drop 1) :=
    parseLoop_enough _ _ _ (by simp; omega) (Nat.lt_succ_self _)
  simp only [parse, parseLoop, h, goes_on, parseCandidate]

/-- Settles O16: the model's names for LEN, TYPE, payload and CRC are those of the rule's loop. -/
theorem parseFollowsItsLoop : Obligations.ParseFollowsItsLoop := by
  unfold Obligations.ParseFollowsItsLoop
  refine fun A => ⟨parse_suffix A, ?_⟩
  cases h : firstMarker A with
  | none =>
    rw [parse_of_firstMarker_none h]
    cases A <;> simp
  | some m =>
    rw [parse_of_firstMarker_some h]
    simp [parseCandidate, candidateCrcMatches, candidateLen, candidateType, candidatePayload, byteAt]

/-! ## The candidate at the front (42_deframer.md R84) -/

theorem neededAt_zero (C : List Byte) : neededAt C 0 = 6 + candidateLen C := by
  rw [neededAt, Nat.zero_add]; rfl

theorem isIncomplete_zero_iff (C : List Byte) :
    IsIncomplete C 0 ↔ C.length < 4 ∨ C.length < 6 + candidateLen C := by
  rw [IsIncomplete, neededAt_zero, Nat.sub_zero]

theorem crcAgrees_zero_iff (C : List Byte) : CrcAgrees C 0 ↔ candidateCrcMatches C = true := by
  rw [CrcAgrees, neededAt_zero, candidateCrcMatches, beq_iff_eq, List.drop_zero,
    show 6 + candidateLen C - 2 = 4 + candidateLen C by omega,
    show 0 + (6 + candidateLen C) - 1 = 5 + candidateLen C by omega,
    show 0 + (6 + candidateLen C) - 2 = 4 + candidateLen C by omega]
  rfl

theorem parse_of_isMarker {C : List Byte} (h : IsMarker C 0) : parse C = parseCandidate C :=
  parse_of_firstMarker_some (firstMarker_of_isMarker h)

theorem parse_of_incomplete {C : List Byte} (hm : IsMarker C 0) (h : IsIncomplete C 0) :
    parse C = (.incomplete, C) := by
  rw [parse_of_isMarker hm, parseCandidate]
  rcases (isIncomplete_zero_iff C).1 h with h4 | hL
  · rw [if_pos h4]
  · rw [if_pos hL, ite_self]

/-- The frame of the candidate at position `i`, and its bytes as they were received (R84, R54). -/
def candidateFrame (A : List Byte) (i : Nat) : Frame :=
  ⟨A.getD (i + 3) 0, (A.drop (i + 4)).take (neededAt A i - 6)⟩

theorem parse_of_valid {C : List Byte} (hm : IsMarker C 0) (h : IsValid C 0) :
    parse C = (.frame (candidateFrame C 0), C.drop (neededAt C 0)) := by
  obtain ⟨complete, agrees⟩ := h
  rw [isIncomplete_zero_iff, not_or] at complete
  rw [parse_of_isMarker hm, parseCandidate, if_neg complete.1, if_neg complete.2,
    if_pos ((crcAgrees_zero_iff C).1 agrees), candidateFrame, neededAt_zero, Nat.add_sub_cancel_left]
  rfl

theorem parse_of_corrupt {C : List Byte} (hm : IsMarker C 0) (h : IsCorrupt C 0) : parse C = parse (C.drop 1) := by
  obtain ⟨complete, disagrees⟩ := h
  rw [isIncomplete_zero_iff, not_or] at complete
  rw [parse_of_isMarker hm, parseCandidate, if_neg complete.1, if_neg complete.2,
    if_neg (mt (crcAgrees_zero_iff C).2 disagrees)]

/-! ## The front byte, where nothing is decoded from it -/

theorem parse_nil : parse [] = (.none, []) := rfl

theorem parse_singleton (a : Byte) : parse [a] = if a = 0x55 then (.incomplete, [0x55]) else (.none, []) := by
  have no_marker : firstMarker [a] = none := firstMarker_eq_none_iff.2 fun i hi => by simp [IsMarker] at hi
  simp [parse_of_firstMarker_none no_marker]

/-- Dropping the front byte changes nothing unless it may be a frame's, or the last one. -/
theorem parse_cons_of_skipped {a : Byte} {B : List Byte} (hB : B ≠ [])
    (h : IsMarker (a :: B) 0 → IsCorrupt (a :: B) 0) :
    parse (a :: B) = parse B := by
  by_cases hm : IsMarker (a :: B) 0
  · exact parse_of_corrupt hm (h hm)
  · have hf := firstMarker_of_not_isMarker hm
    cases hB' : firstMarker B with
    | none =>
      rw [hB', Option.map_none] at hf
      rw [parse_of_firstMarker_none hf, parse_of_firstMarker_none hB', List.getLast?_cons_of_ne_nil hB]
    | some m =>
      rw [hB', Option.map_some] at hf
      rw [parse_of_firstMarker_some hf, parse_of_firstMarker_some hB', List.drop_succ_cons]

/-- How `parse` reads a buffer from the front, with the outcome and the rest: it skips the front byte until it comes
to a candidate that is not corrupt, or to the last byte. -/
inductive Parses : List Byte → ParseOutcome → List Byte → Prop where
  | empty : Parses [] .none []
  | lastByte (a : Byte) (ha : a ≠ 0x55) : Parses [a] .none []
  /-- The partial marker that is kept (R77). -/
  | partialMarker : Parses [0x55] .incomplete [0x55]
  | incomplete {C : List Byte} (hm : IsMarker C 0) (h : IsIncomplete C 0) : Parses C .incomplete C
  | valid {C : List Byte} (hm : IsMarker C 0) (h : IsValid C 0) :
    Parses C (.frame (candidateFrame C 0)) (C.drop (neededAt C 0))
  | skip {a : Byte} {B R : List Byte} {o : ParseOutcome} (hB : B ≠ [])
    (h : IsMarker (a :: B) 0 → IsCorrupt (a :: B) 0) (rest : Parses B o R) : Parses (a :: B) o R

theorem parse_parses (A : List Byte) : Parses A (parse A).1 (parse A).2 := by
  induction A with
  | nil => exact .empty
  | cons a B ih =>
    by_cases hB : B = []
    · subst hB
      rw [parse_singleton]
      split
      next ha => subst ha; exact .partialMarker
      next ha => exact .lastByte a ha
    · by_cases hs : IsMarker (a :: B) 0 → IsCorrupt (a :: B) 0
      · rw [parse_cons_of_skipped hB hs]
        exact .skip hB hs ih
      · obtain ⟨hm, hc⟩ := Classical.not_imp.1 hs
        by_cases hi : IsIncomplete (a :: B) 0
        · rw [parse_of_incomplete hm hi]
          exact .incomplete hm hi
        · have hv : IsValid (a :: B) 0 := ⟨hi, not_not.1 fun hn => hc ⟨hi, hn⟩⟩
          rw [parse_of_valid hm hv]
          exact .valid hm hv

/-! ## Bounds on the result (42_deframer.md R82) -/

theorem head?_of_isMarker {C : List Byte} (h : IsMarker C 0) : C.head? = some 0x55 := by
  obtain ⟨-, h55, -⟩ := h
  cases C with
  | nil => exact absurd h55 (by decide)
  | cons a B => exact congrArg some h55

theorem length_le_of_isIncomplete {C : List Byte} (h : IsIncomplete C 0) : C.length ≤ 260 := by
  have hL : candidateLen C < 256 := BitVec.isLt _
  rcases (isIncomplete_zero_iff C).1 h with h | h <;> omega

theorem six_le_length_of_isValid {C : List Byte} (h : IsValid C 0) : 6 ≤ C.length := by
  obtain ⟨complete, -⟩ := h
  rw [isIncomplete_zero_iff] at complete
  omega

theorem Parses.frame_length {A R : List Byte} {o : ParseOutcome} (h : Parses A o R) {f : Frame} (ho : o = .frame f) :
    R.length + 6 ≤ A.length := by
  induction h with
  | valid hm h =>
    have h6 := six_le_length_of_isValid h
    rw [List.length_drop, neededAt_zero]
    omega
  | skip _ _ _ ih => exact Nat.le_succ_of_le (ih ho)
  | _ => cases ho

theorem Parses.incomplete_rest {A R : List Byte} {o : ParseOutcome} (h : Parses A o R) (ho : o = .incomplete) :
    R.head? = some 0x55 ∧ R.length ≤ 260 := by
  induction h with
  | partialMarker => exact ⟨rfl, by decide⟩
  | incomplete hm h => exact ⟨head?_of_isMarker hm, length_le_of_isIncomplete h⟩
  | skip _ _ _ ih => exact ih ho
  | _ => cases ho

theorem Parses.none_rest {A R : List Byte} {o : ParseOutcome} (h : Parses A o R) (ho : o = .none) : R = [] := by
  induction h with
  | empty | lastByte => rfl
  | skip _ _ _ ih => exact ih ho
  | _ => cases ho

/-- Settles O17: each bound is read off the way the buffer was parsed; the last one joins those of the two outcomes
without a frame. -/
theorem parseBounds : Obligations.ParseBounds := by
  unfold Obligations.ParseBounds
  intro A
  have hA := parse_parses A
  refine ⟨parse_suffix A, fun f hf => ?_, fun hi => ?_, hA.none_rest, fun hf => ?_⟩
  · have := hA.frame_length hf
    omega
  · obtain ⟨head, le⟩ := hA.incomplete_rest hi
    exact ⟨fun hnil => by simp [hnil] at head, head, le⟩
  · cases ho : (parse A).1 with
    | frame f => exact absurd ho (hf f)
    | incomplete => exact (hA.incomplete_rest ho).2
    | none => simp [hA.none_rest ho]

/-! ## The first candidate that is not corrupt decides (42_deframer.md R84) -/

/-! A candidate at `i` is the front candidate of what is left behind the first `i` bytes. -/

theorem getD_drop (A : List Byte) (i k : Nat) : (A.drop i).getD k 0 = A.getD (i + k) 0 := by
  simp

theorem isMarker_drop (A : List Byte) (i : Nat) : IsMarker (A.drop i) 0 ↔ IsMarker A i := by
  simp only [IsMarker, getD_drop, List.length_drop]
  exact and_congr_left' (by omega)

theorem neededAt_drop (A : List Byte) (i : Nat) : neededAt (A.drop i) 0 = neededAt A i := by
  rw [neededAt, getD_drop, Nat.zero_add, neededAt]

theorem isIncomplete_drop (A : List Byte) (i : Nat) : IsIncomplete (A.drop i) 0 ↔ IsIncomplete A i := by
  rw [IsIncomplete, neededAt_drop, List.length_drop, Nat.sub_zero, IsIncomplete]

theorem crcAgrees_drop (A : List Byte) (i : Nat) : CrcAgrees (A.drop i) 0 ↔ CrcAgrees A i := by
  have six : 6 ≤ neededAt A i := Nat.le_add_right _ _
  rw [CrcAgrees, neededAt_drop, getD_drop, getD_drop, List.drop_zero, CrcAgrees,
    show i + (0 + neededAt A i - 2) = i + neededAt A i - 2 by omega,
    show i + (0 + neededAt A i - 1) = i + neededAt A i - 1 by omega]

theorem isCorrupt_drop (A : List Byte) (i : Nat) : IsCorrupt (A.drop i) 0 ↔ IsCorrupt A i := by
  rw [IsCorrupt, isIncomplete_drop, crcAgrees_drop, IsCorrupt]

theorem isValid_drop (A : List Byte) (i : Nat) : IsValid (A.drop i) 0 ↔ IsValid A i := by
  rw [IsValid, isIncomplete_drop, crcAgrees_drop, IsValid]

theorem candidateFrame_drop (A : List Byte) (i : Nat) : candidateFrame (A.drop i) 0 = candidateFrame A i := by
  rw [candidateFrame, getD_drop, List.drop_drop, neededAt_drop, Nat.zero_add, Nat.zero_add, candidateFrame]

/-- Bytes whose candidates are all corrupt are dropped, up to any later byte of the buffer. -/
theorem parse_eq_parse_drop {A : List Byte} {i : Nat} (hi : i < A.length)
    (h : ∀ j, j < i → IsMarker A j → IsCorrupt A j) : parse A = parse (A.drop i) := by
  induction i with
  | zero => rfl
  | succ i ih =>
    rw [ih (by omega) fun j hj => h j (by omega)]
    have front : A.drop i = A[i] :: A.drop (i + 1) := List.drop_eq_getElem_cons (by omega)
    have skipped := h i (Nat.lt_succ_self i)
    rw [← isMarker_drop, ← isCorrupt_drop, front] at skipped
    rw [front]
    exact parse_cons_of_skipped (List.drop_eq_nil_iff.not.2 (by omega)) skipped

theorem parse_of_decidesAt {A : List Byte} {i : Nat} (h : DecidesAt A i) : parse A = parse (A.drop i) := by
  obtain ⟨⟨hlen, -⟩, -, before⟩ := h
  exact parse_eq_parse_drop (by omega) before

theorem parse_of_decidesAt_incomplete {A : List Byte} {i : Nat} (h : DecidesAt A i) (hi : IsIncomplete A i) :
    parse A = (.incomplete, A.drop i) := by
  rw [parse_of_decidesAt h, parse_of_incomplete ((isMarker_drop A i).2 h.1) ((isIncomplete_drop A i).2 hi)]

theorem parse_of_decidesAt_valid {A : List Byte} {i : Nat} (h : DecidesAt A i) (hv : IsValid A i) :
    parse A = (.frame (candidateFrame A i), A.drop (i + neededAt A i)) := by
  rw [parse_of_decidesAt h, parse_of_valid ((isMarker_drop A i).2 h.1) ((isValid_drop A i).2 hv),
    candidateFrame_drop, neededAt_drop, List.drop_drop]

/-- Where every candidate is corrupt, all bytes but the last are dropped. -/
theorem parse_of_all_corrupt {A : List Byte} (h : ∀ i, IsMarker A i → IsCorrupt A i) :
    parse A = if 1 ≤ A.length ∧ A.getLast? = some 0x55 then (.incomplete, [0x55]) else (.none, []) := by
  by_cases hA : A = []
  · subst hA
    exact parse_nil
  · have hlen : 1 ≤ A.length := List.length_pos_of_ne_nil hA
    rw [parse_eq_parse_drop (i := A.length - 1) (by omega) fun j _ => h j, List.drop_length_sub_one hA,
      parse_singleton, List.getLast?_eq_some_getLast hA]
    simp only [hlen, true_and, Option.some.injEq]

/-- A parse without a frame leaves what it would leave again. -/
theorem Parses.parse_rest {A R : List Byte} {o : ParseOutcome} (h : Parses A o R) (ho : ∀ f, o ≠ .frame f) :
    parse R = (o, R) := by
  induction h with
  | empty | lastByte => exact parse_nil
  | partialMarker => exact parse_singleton _
  | incomplete hm h => exact parse_of_incomplete hm h
  | valid => exact absurd rfl (ho _)
  | skip _ _ _ ih => exact ih ho

/-- Settles O18: what comes before the deciding candidate is dropped, and the candidate is then the front one. -/
theorem parseDecidedByFirstCandidate : Obligations.ParseDecidedByFirstCandidate := by
  unfold Obligations.ParseDecidedByFirstCandidate
  exact fun A => ⟨fun _ => parse_of_decidesAt_incomplete, fun _ => parse_of_decidesAt_valid, parse_of_all_corrupt,
    (parse_parses A).parse_rest⟩

/-! ## A whole frame at the front (42_deframer.md R87) -/

/-- A CRC field states one value. -/
theorem le16_injective {v w : Half} (h : le16 v = le16 w) : v = w := by
  obtain ⟨low, high⟩ : v.extractLsb' 0 8 = w.extractLsb' 0 8 ∧ v.extractLsb' 8 8 = w.extractLsb' 8 8 := by
    simpa [le16] using h
  rw [← u16le_le16 v, low, high, u16le_le16]

section

/-! A candidate whose body has the length its LEN states, with its CRC field and any bytes behind it. -/

variable {body crc : List Byte} (hb : body.length = 4 + (body.getD 2 0).toNat) (hc : crc.length = 2)

include hb

theorem neededAt_of_body (v : List Byte) : neededAt (body ++ v) 0 = body.length + 2 := by
  rw [neededAt, Nat.zero_add, List.getD_append _ _ _ _ (by omega)]
  omega

include hc

theorem not_isIncomplete_of_body (R : List Byte) : ¬ IsIncomplete (body ++ crc ++ R) 0 := by
  rw [IsIncomplete, List.append_assoc, neededAt_of_body hb]
  simp only [List.length_append, hc]
  omega

theorem crcAgrees_of_body (R : List Byte) : CrcAgrees (body ++ crc ++ R) 0 ↔ crc = le16 (crc16 body) := by
  obtain ⟨c0, c1, rfl⟩ := List.length_eq_two.1 hc
  have low : (body ++ ([c0, c1] ++ R)).getD (0 + (body.length + 2) - 2) 0 = c0 := by simp
  have high : (body ++ ([c0, c1] ++ R)).getD (0 + (body.length + 2) - 1) 0 = c1 := by simp
  rw [CrcAgrees, List.append_assoc, neededAt_of_body hb, low, high, List.drop_zero, Nat.add_sub_cancel,
    List.take_left, ← le16_u16le]
  exact ⟨fun h => h ▸ rfl, fun h => (le16_injective h).symm⟩

end

/-- LEN states the payload's length, where one byte can. -/
theorem frameBody_length_eq_len (t : Byte) {p : List Byte} (hp : p.length ≤ 255) :
    (frameBody t p).length = 4 + ((frameBody t p).getD 2 0).toNat := by
  have hlen : (BitVec.ofNat 8 p.length).toNat = p.length := Nat.mod_eq_of_lt (by omega)
  simp [frameBody_eq, hlen]
  omega

theorem isMarker_wire_append (t : Byte) (p R : List Byte) : IsMarker (wire t p ++ R) 0 :=
  ⟨by rw [List.length_append, wire_length]; omega, rfl, rfl⟩

theorem neededAt_wire_append (t : Byte) {p : List Byte} (hp : p.length ≤ 255) (R : List Byte) :
    neededAt (wire t p ++ R) 0 = 6 + p.length := by
  rw [wire_eq_frameBody_append, List.append_assoc, neededAt_of_body (frameBody_length_eq_len t hp), frameBody_length]
  omega

theorem isValid_wire_append (t : Byte) {p : List Byte} (hp : p.length ≤ 255) (R : List Byte) :
    IsValid (wire t p ++ R) 0 := by
  have hb := frameBody_length_eq_len t hp
  exact ⟨not_isIncomplete_of_body hb (le16_length _) R, (crcAgrees_of_body hb (le16_length _) R).2 rfl⟩

theorem candidateFrame_wire_append (t : Byte) {p : List Byte} (hp : p.length ≤ 255) (R : List Byte) :
    candidateFrame (wire t p ++ R) 0 = ⟨t, p⟩ := by
  rw [candidateFrame, neededAt_wire_append t hp, Nat.add_sub_cancel_left]
  simp [wire_eq_frameBody_append, frameBody_eq]

/-- Settles O21: the marker at the front is the first, and its candidate is complete with the CRC the framer wrote. -/
theorem framerDeframerRoundTrip : Obligations.FramerDeframerRoundTrip := by
  unfold Obligations.FramerDeframerRoundTrip
  intro t p R hp
  rw [parse_of_valid (isMarker_wire_append t p R) (isValid_wire_append t hp R), candidateFrame_wire_append t hp,
    neededAt_wire_append t hp, List.drop_left' (wire_length t p)]

theorem parse_wire (t : Byte) {p : List Byte} (hp : p.length ≤ 255) : parse (wire t p) = (.frame ⟨t, p⟩, []) := by
  simpa using framerDeframerRoundTrip t p [] hp

/-! ## One flipped bit (42_deframer.md R90) -/

theorem xor_bitMask_ne (a : Byte) {b : Nat} (hb : b < 8) : a ^^^ BitVec.ofNat 8 (2 ^ b) ≠ a :=
  fun h => bitMask_ne_zero hb (by simpa using h)

@[simp] theorem flipBit_length (u : List Byte) (k b : Nat) : (flipBit u k b).length = u.length :=
  List.length_set

theorem flipBit_ne {u : List Byte} {k b : Nat} (hk : k < u.length) (hb : b < 8) : flipBit u k b ≠ u := by
  intro h
  have hbyte := congrArg (·.getD k 0) h
  exact xor_bitMask_ne (u.getD k 0) hb (by simpa [flipBit, hk] using hbyte)

theorem getD_flipBit_of_ne (u : List Byte) {k j : Nat} (b : Nat) (h : k ≠ j) :
    (flipBit u k b).getD j 0 = u.getD j 0 := by
  simp [flipBit, h]

theorem flipBit_append_left {u : List Byte} {k : Nat} (v : List Byte) (b : Nat) (hk : k < u.length) :
    flipBit (u ++ v) k b = flipBit u k b ++ v := by
  rw [flipBit, List.getD_append _ _ _ _ hk, List.set_append_left _ _ hk, flipBit]

theorem flipBit_append_right {u : List Byte} {k : Nat} (v : List Byte) (b : Nat) (hk : u.length ≤ k) :
    flipBit (u ++ v) k b = u ++ flipBit v (k - u.length) b := by
  rw [flipBit, List.getD_append_right _ _ _ _ hk, List.set_append_right _ _ hk, flipBit]

/-- A flip in TYPE or PAYLOAD changes the CRC of the body; one in the CRC field changes the field alone. -/
theorem isCorrupt_flipBit_wire (t : Byte) {p : List Byte} (R : List Byte) {k b : Nat} (hp : p.length ≤ 255) (hb : b < 8)
    (h3 : 3 ≤ k) (hk : k < 6 + p.length) : IsCorrupt (flipBit (wire t p) k b ++ R) 0 := by
  have hbody := frameBody_length_eq_len t hp
  rw [wire_eq_frameBody_append]
  by_cases hkb : k < (frameBody t p).length
  · have hflip : (flipBit (frameBody t p) k b).length = 4 + ((flipBit (frameBody t p) k b).getD 2 0).toNat := by
      rw [flipBit_length, getD_flipBit_of_ne _ _ (by omega), hbody]
    rw [flipBit_append_left _ _ hkb]
    refine ⟨not_isIncomplete_of_body hflip (le16_length _) R, fun h => crc16_flipBit_ne hkb hb ?_⟩
    exact le16_injective ((crcAgrees_of_body hflip (le16_length _) R).1 h)
  · have hcrc (v : Half) : (flipBit (le16 v) (k - (frameBody t p).length) b).length = 2 := flipBit_length _ _ _
    rw [flipBit_append_right _ _ (Nat.not_lt.1 hkb)]
    refine ⟨not_isIncomplete_of_body hbody (hcrc _) R, fun h => ?_⟩
    refine flipBit_ne ?_ hb ((crcAgrees_of_body hbody (hcrc _) R).1 h)
    rw [frameBody_length] at hkb ⊢
    rw [le16_length]
    omega

/-- A flip in one of the marker's bytes leaves no marker there. -/
theorem not_isMarker_flipBit_wire (t : Byte) (p R : List Byte) {k b : Nat} (hb : b < 8) (hk : k ≤ 1) :
    ¬ IsMarker (flipBit (wire t p) k b ++ R) 0 := by
  rintro ⟨-, h0, h1⟩
  interval_cases k
  · exact xor_bitMask_ne 0x55 hb h0
  · exact xor_bitMask_ne 0xAA hb h1

/-- Settles O24: in both cases the front byte is skipped. -/
theorem singleBitFlips : Obligations.SingleBitFlips := by
  unfold Obligations.SingleBitFlips
  refine ⟨fun t p R k b hp hb hk => ?_, by decide +kernel, by decide +kernel⟩
  have corrupt (h3 : 3 ≤ k) := isCorrupt_flipBit_wire t R hp hb h3 hk
  have no_marker (h1 : k ≤ 1) := not_isMarker_flipBit_wire t p R hb h1
  refine ⟨corrupt, no_marker, fun h2 => ?_⟩
  have hlen : 1 < (flipBit (wire t p) k b ++ R).length := by
    rw [List.length_append, flipBit_length, wire_length]
    omega
  refine parse_eq_parse_drop hlen fun j hj hm => ?_
  obtain rfl : j = 0 := by omega
  exact corrupt (by by_contra h3; exact no_marker (by omega) hm)

/-! ## Bytes behind a buffer (42_deframer.md R88, R89) -/

theorem isMarker_append {A : List Byte} (B : List Byte) {i : Nat} (hi : i + 1 < A.length) :
    IsMarker (A ++ B) i ↔ IsMarker A i := by
  rw [IsMarker, IsMarker, List.getD_append _ _ _ _ (by omega), List.getD_append _ _ _ _ hi, List.length_append]
  exact and_congr_left' (by omega)

theorem neededAt_append {A : List Byte} (B : List Byte) {i : Nat} (hi : i + 2 < A.length) :
    neededAt (A ++ B) i = neededAt A i := by
  rw [neededAt, List.getD_append _ _ _ _ hi, neededAt]

/-- A complete candidate ends inside its buffer, so bytes behind it change nothing of it. -/
theorem isCorrupt_append {A : List Byte} (B : List Byte) {i : Nat} (h : IsCorrupt A i) : IsCorrupt (A ++ B) i := by
  obtain ⟨complete, disagrees⟩ := h
  obtain ⟨h4, hn⟩ := not_or.1 complete
  have six : 6 ≤ neededAt A i := Nat.le_add_right _ _
  have needed := neededAt_append B (show i + 2 < A.length by omega)
  refine ⟨?_, fun h => disagrees ?_⟩
  · rw [IsIncomplete, needed, List.length_append]
    omega
  · rw [CrcAgrees, needed, List.drop_append_of_le_length (by omega),
      List.take_append_of_le_length (by rw [List.length_drop]; omega),
      List.getD_append _ _ _ _ (by omega), List.getD_append _ _ _ _ (by omega)] at h
    exact h

/-- A candidate cut short is incomplete. -/
theorem isIncomplete_of_append {A B : List Byte} (h : A.length < neededAt (A ++ B) 0) : IsIncomplete A 0 := by
  by_cases h4 : A.length < 4
  · exact .inl h4
  · rw [neededAt_append B (by omega)] at h
    exact .inr h

/-! ## Garbage before a frame (42_deframer.md R89) -/

theorem parse_garbage_wire {G : List Byte} (t : Byte) {p : List Byte} (R : List Byte) (hp : p.length ≤ 255)
    (hG : ∀ i, i < G.length → IsMarker (G ++ wire t p) i → IsCorrupt (G ++ wire t p) i) :
    parse (G ++ wire t p ++ R) = (.frame ⟨t, p⟩, R) := by
  have hlen : (G ++ wire t p).length = G.length + (6 + p.length) := by rw [List.length_append, wire_length]
  have hcorrupt : ∀ i, i < G.length → IsMarker (G ++ wire t p ++ R) i → IsCorrupt (G ++ wire t p ++ R) i := by
    intro i hi hm
    exact isCorrupt_append R (hG i hi ((isMarker_append R (by omega)).1 hm))
  rw [parse_eq_parse_drop (by rw [List.length_append]; omega) hcorrupt, List.append_assoc, List.drop_left]
  exact framerDeframerRoundTrip t p R hp

/-- A frame begins with 0x55, so no marker straddles the end of the garbage before it. -/
theorem not_isMarker_append_wire {G : List Byte} (t : Byte) (p : List Byte) (hG : ∀ i, ¬ IsMarker G i) {i : Nat}
    (hi : i < G.length) : ¬ IsMarker (G ++ wire t p) i := by
  by_cases hi1 : i + 1 < G.length
  · exact fun h => hG i ((isMarker_append _ hi1).1 h)
  · have hend : i + 1 = G.length := by omega
    rintro ⟨-, -, hAA⟩
    rw [hend, List.getD_append_right _ _ _ _ (Nat.le_refl _), Nat.sub_self] at hAA
    exact absurd (show (0x55 : Byte) = 0xAA from hAA) (by decide)

/-- Settles O23: corrupt garbage is skipped up to the first frame; other garbage is decided by its own candidate. -/
theorem resynchronisation : Obligations.Resynchronisation := by
  unfold Obligations.Resynchronisation
  refine ⟨fun G tA pA tB pB hA hB hG => ⟨parse_garbage_wire tA (wire tB pB) hA hG, parse_wire tB hB, parse_nil⟩,
    fun G tA pA hG i => not_isMarker_append_wire tA pA hG, fun G tA pA tB pB i hi hd => ⟨fun hinc => ?_, fun hv => ?_⟩,
    by decide +kernel, by decide +kernel⟩
  · rw [parse_of_decidesAt_incomplete hd hinc, List.append_assoc, List.drop_append_of_le_length (by omega),
      List.append_assoc]
  · exact ⟨_, parse_of_decidesAt_valid hd hv⟩

/-! ## The PARSE command (42_deframer.md R85) -/

theorem decode_parse (fields : List Byte) : decode (0x03 :: fields) = decodeBare .parse fields := rfl

theorem exec_parse_of_frame {s : State} {f : Frame} {R : List Byte} (h : parse s.acc = (.frame f, R)) :
    exec .parse s = .next
      (respond .frame (f.type :: BitVec.ofNat 8 f.payload.length :: f.payload) { s with acc := R }) := by
  simp [exec, execParse, dropParsed_eq, h]

theorem exec_parse_of_incomplete {s : State} {R : List Byte} (h : parse s.acc = (.incomplete, R)) :
    exec .parse s = .next (respond .incomplete [] { s with acc := R }) := by
  simp [exec, execParse, dropParsed_eq, h]

theorem exec_parse_of_none {s : State} {R : List Byte} (h : parse s.acc = (.none, R)) :
    exec .parse s = .next (respond .none [] { s with acc := R }) := by
  simp [exec, execParse, dropParsed_eq, h]

/-- Settles O19: a byte after the opcode is one too many; run, the command responds what the outcome says. -/
theorem parseCommand : Obligations.ParseCommand := by
  unfold Obligations.ParseCommand
  refine ⟨rfl, fun x fields => refusedAsMalformed_of_rejected (decode_parse (x :: fields)), fun s => ?_⟩
  obtain ⟨o, R, h⟩ : ∃ o R, parse s.acc = (o, R) := ⟨_, _, rfl⟩
  cases o with
  | frame f => rw [exec_parse_of_frame h, h]; rfl
  | incomplete => rw [exec_parse_of_incomplete h, h]; rfl
  | none => rw [exec_parse_of_none h, h]; rfl

/-! ## The ACC_APPEND command (42_deframer.md R86) -/

theorem decode_accAppend (fields : List Byte) : decode (0x04 :: fields) = decodeData .accAppend fields := rfl

theorem exec_accAppend_of_le {s : State} {data : List Byte} (h : s.acc.length + data.length ≤ s.params.accCapacity) :
    exec (.accAppend data) s = .next (respond .ok [] { s with acc := s.acc ++ data }) :=
  congrArg Host.Outcome.next (if_neg (Nat.not_lt.2 h))

theorem exec_accAppend_of_gt {s : State} {data : List Byte} (h : s.params.accCapacity < s.acc.length + data.length) :
    exec (.accAppend data) s = .next (respond .accOverflow [] s) :=
  congrArg Host.Outcome.next (if_pos h)

/-- Settles O20: the data field has its stated length, another one, or no complete length field before it; run, the
command appends all of it or none, as the capacity says. -/
theorem accAppendCommand : Obligations.AccAppendCommand := by
  unfold Obligations.AccAppendCommand
  refine ⟨fun n0 n1 data => ?_, fun fields h => ?_, fun _ _ => exec_accAppend_of_le, fun _ _ => exec_accAppend_of_gt⟩
  · split
    next h => rw [decode_accAppend, decodeData_of_eq _ h]
    next h => exact refusedAsMalformed_of_rejected (by rw [decode_accAppend, decodeData_of_ne _ h])
  · exact refusedAsMalformed_of_rejected (by rw [decode_accAppend, decodeData_of_short _ h])

/-! ## A frame fed byte by byte (42_deframer.md R88) -/

theorem parse_take_wire (t : Byte) {p : List Byte} {k : Nat} (hp : p.length ≤ 255) (h1 : 1 ≤ k)
    (hk : k < (wire t p).length) : parse ((wire t p).take k) = (.incomplete, (wire t p).take k) := by
  have hlen : ((wire t p).take k).length = k := List.length_take_of_le (by omega)
  have whole : (wire t p).take k ++ (wire t p).drop k = wire t p := List.take_append_drop k _
  by_cases hk1 : k = 1
  · subst hk1
    exact parse_singleton 0x55
  · refine parse_of_incomplete ?_ (isIncomplete_of_append (B := (wire t p).drop k) ?_)
    · rw [← isMarker_append ((wire t p).drop k) (by omega), whole]
      simpa using isMarker_wire_append t p []
    · have needed := neededAt_wire_append t hp []
      rw [List.append_nil] at needed
      rw [whole, hlen, needed, ← wire_length t p]
      exact hk

/-- Settles O22: the append gives the first `k` bytes of the frame, which are parsed as a proper part of it or as all
of it. -/
theorem partialDelivery : Obligations.PartialDelivery := by
  unfold Obligations.PartialDelivery
  intro t p s k hp hparams h1 hk hacc
  have hw := wire_length t p
  have hcap := hparams.capacity_low
  have grows : s.acc ++ [(wire t p).getD (k - 1) 0] = (wire t p).take k := by
    rw [hacc, List.getD_eq_getElem _ _ (by omega), List.take_concat_get' _ _ (by omega), Nat.sub_add_cancel h1]
  have fits : s.acc.length + [(wire t p).getD (k - 1) 0].length ≤ s.params.accCapacity := by
    rw [hacc, List.length_take_of_le (by omega), List.length_singleton]
    omega
  have appended := exec_accAppend_of_le fits
  rw [grows] at appended
  by_cases hlast : k < (wire t p).length
  · have parsed := parse_take_wire t hp h1 hlast
    exact ⟨_, _, appended, exec_parse_of_incomplete parsed, newEvents_of_append rfl,
      fun _ => ⟨rfl, newEvents_of_append rfl⟩, fun h => absurd h (by omega)⟩
  · have parsed := parse_wire t hp
    rw [← List.take_of_length_le (Nat.not_lt.1 hlast)] at parsed
    exact ⟨_, _, appended, exec_parse_of_frame parsed, newEvents_of_append rfl,
      fun h => absurd h hlast, fun _ => ⟨rfl, newEvents_of_append rfl⟩⟩

end Sys2Proof.Machine
end

section
/-! Proofs of the family 43_transmit.md: what handing one frame to the transport does, and the commands SEND_FRAME
(R95), SEND_ACK (R96) and SEND_START_WORD (R97), which do that and nothing else. -/

namespace Sys2Proof.Machine

/-! ## One frame handed to the transport (43_transmit.md R95) -/

/-- Handing over a frame takes one answer from the transport and records the request and the response to it. -/
theorem sendOnce_eq (t : Byte) (p : List Byte) (s : State) :
    sendOnce t p s =
      { s with
        env := s.env.drawSend.2
        trace := s.trace ++
          [.txSend (wire t p) s.env.drawSend.1,
           .response [if s.env.drawSend.1 = .ok then 0x00 else 0x11]] } := by
  obtain ⟨a, e, h⟩ : ∃ a e, s.env.drawSend = (a, e) := ⟨_, _, rfl⟩
  simp only [sendOnce, txSend_eq, h]
  cases a with
  | ok => simp [respond, State.record, Status.code]
  | fail => simp [respond, State.record, Status.code]

/-! ## The SEND_FRAME command (43_transmit.md R95) -/

theorem decode_sendFrame (fields : List Byte) : decode (0x05 :: fields) = decodeFrame .sendFrame fields := rfl

theorem exec_sendFrame_of_le (t : Byte) {p : List Byte} (h : p.length ≤ 255) (s : State) :
    exec (.sendFrame t p) s = .next (sendOnce t p s) :=
  congrArg Host.Outcome.next (if_neg (Nat.not_lt.2 h))

theorem exec_sendFrame_of_gt (t : Byte) {p : List Byte} (h : 255 < p.length) (s : State) :
    exec (.sendFrame t p) s = .next (respond .payloadTooLarge [] s) :=
  congrArg Host.Outcome.next (if_pos h)

/-- Settles O26: the payload has its stated length, another one, or no complete length field before it; run, the
command refuses a payload over 255 bytes and hands the frame of any other to the transport. -/
theorem sendFrameCommand : Obligations.SendFrameCommand := by
  unfold Obligations.SendFrameCommand
  refine ⟨fun t l0 l1 p => ?_, fun fields h => ?_, fun t p s h => exec_sendFrame_of_gt t h s, fun t p s h => ?_⟩
  · split
    next h => rw [decode_sendFrame, decodeFrame_of_eq _ _ h]
    next h => exact refusedAsMalformed_of_rejected (by rw [decode_sendFrame, decodeFrame_of_ne _ _ h])
  · exact refusedAsMalformed_of_rejected (by rw [decode_sendFrame, decodeFrame_of_short _ h])
  · rw [exec_sendFrame_of_le t h, sendOnce_eq]

/-! ## The two frames without payload (43_transmit.md R96, R97) -/

theorem wire_ack : wire typeAck [] = [0x55, 0xAA, 0x00, 0x02, 0xA1, 0x17] := by decide +kernel

theorem wire_start : wire typeStart [] = [0x55, 0xAA, 0x00, 0x01, 0xC2, 0x27] := by decide +kernel

theorem decode_sendAck (fields : List Byte) : decode (0x06 :: fields) = decodeBare .sendAck fields := rfl

theorem decode_sendStartWord (fields : List Byte) : decode (0x07 :: fields) = decodeBare .sendStartWord fields := rfl

theorem exec_sendAck (s : State) : exec .sendAck s = .next (sendOnce typeAck [] s) := rfl

theorem exec_sendStartWord (s : State) : exec .sendStartWord s = .next (sendOnce typeStart [] s) := rfl

/-- Settles O27: a byte after the opcode is one too many; run, the command hands over the ACK frame. -/
theorem sendAckCommand : Obligations.SendAckCommand := by
  unfold Obligations.SendAckCommand
  refine ⟨rfl, fun x fields => refusedAsMalformed_of_rejected (decode_sendAck (x :: fields)), fun s => ?_⟩
  rw [exec_sendAck, sendOnce_eq, wire_ack]

/-- Settles O28: a byte after the opcode is one too many; run, the command hands over the START frame. -/
theorem sendStartWordCommand : Obligations.SendStartWordCommand := by
  unfold Obligations.SendStartWordCommand
  refine ⟨rfl, fun x fields => refusedAsMalformed_of_rejected (decode_sendStartWord (x :: fields)), fun s => ?_⟩
  rw [exec_sendStartWord, sendOnce_eq, wire_start]

end Sys2Proof.Machine
end

section
/-! Proofs of the family 44_handshake.md: elapsed time and the deadline (R102, R103), the SEND_FRAME_WAIT_ACK command
(R104), and the steps of its wait in SENT, W_CHECK and W_PARSE (R105, R106, R108), each as an exact next state. -/

namespace Sys2Proof.Machine

/-! ## Elapsed time and the deadline (44_handshake.md R102, R103) -/

theorem elapsed_toNat (now start : Word) :
    (elapsed now start).toNat = (now.toNat + 2 ^ 32 - start.toNat) % 2 ^ 32 := by
  have := start.isLt
  rw [elapsed, BitVec.toNat_sub]
  congr 1
  omega

theorem elapsed_add_left (start d : Word) : elapsed (start + d) start = d := by
  rw [elapsed, BitVec.add_comm, BitVec.add_sub_cancel]

theorem beforeDeadline_iff (now start timeout : Word) :
    beforeDeadline now start timeout = true ↔ (elapsed now start).toNat < timeout.toNat :=
  decide_eq_true_iff

/-- Settles O35: subtraction of words is subtraction modulo 2^32 of the numbers, and the compare is theirs. -/
theorem elapsedWrapsAround : Obligations.ElapsedWrapsAround := by
  unfold Obligations.ElapsedWrapsAround
  exact ⟨elapsed_toNat, elapsed_add_left, beforeDeadline_iff, by decide⟩

end Sys2Proof.Machine

/-! ## Messages that begin a wait (30_encoding.md R57, R58, R62) -/

namespace Sys2Proof

theorem decode_sendFrameWaitAck (fields : List Byte) : decode (0x08 :: fields) = decodeWaitAck fields := rfl

theorem reservedFlagBits_eq_zero_iff (flags : Byte) : reservedFlagBits flags = 0 ↔ flags.toNat < 2 := by
  have := flags.isLt
  simp only [reservedFlagBits, ← BitVec.toNat_inj, BitVec.extractLsb'_toNat, Nat.shiftRight_eq_div_pow,
    BitVec.ofNat_eq_ofNat, BitVec.toNat_ofNat]
  omega

/-- With the reserved bits clear FLAGS is USE_DEFAULT alone. -/
theorem useDefaultBit_of_lt {flags : Byte} (h : flags.toNat < 2) : useDefaultBit flags = (flags == 0x01) := by
  obtain rfl | rfl : flags = 0x00 ∨ flags = 0x01 := by bv_omega
  · rfl
  · rfl

theorem u32le_eq_ofNat (b0 b1 b2 b3 : Byte) :
    u32le b0 b1 b2 b3 =
      BitVec.ofNat 32 (b0.toNat + 256 * b1.toNat + 65536 * b2.toNat + 16777216 * b3.toNat) := by
  rw [← u32le_toNat, BitVec.ofNat_toNat, BitVec.setWidth_eq]

section
variable {flags : Byte} (t t0 t1 t2 t3 : Byte) {l0 l1 : Byte} {p : List Byte}

/-- With the reserved bits clear only the payload's length is left to check. -/
theorem decodeWaitAck_of_flags (h : flags.toNat < 2) :
    decodeWaitAck (flags :: t :: t0 :: t1 :: t2 :: t3 :: l0 :: l1 :: p) =
      exactBody (u16le l0 l1) p (.sendFrameWaitAck (useDefaultBit flags) t (u32le t0 t1 t2 t3) p) :=
  if_pos ((reservedFlagBits_eq_zero_iff flags).2 h)

theorem decodeWaitAck_of_eq (h : flags.toNat < 2) (hp : p.length = l0.toNat + 256 * l1.toNat) :
    decodeWaitAck (flags :: t :: t0 :: t1 :: t2 :: t3 :: l0 :: l1 :: p) =
      .ok (.sendFrameWaitAck (flags == 0x01) t
        (BitVec.ofNat 32 (t0.toNat + 256 * t1.toNat + 65536 * t2.toNat + 16777216 * t3.toNat)) p) := by
  rw [decodeWaitAck_of_flags _ _ _ _ _ h, exactBody_of_eq _ (by rw [hp, u16le_toNat]), useDefaultBit_of_lt h,
    u32le_eq_ofNat]

theorem decodeWaitAck_of_ne (h : flags.toNat < 2) (hp : p.length ≠ l0.toNat + 256 * l1.toNat) :
    decodeWaitAck (flags :: t :: t0 :: t1 :: t2 :: t3 :: l0 :: l1 :: p) = .rejected .wrongLength := by
  rw [decodeWaitAck_of_flags _ _ _ _ _ h, exactBody_of_ne _ (by rwa [u16le_toNat])]

theorem decodeWaitAck_of_reserved (h : ¬ flags.toNat < 2) :
    decodeWaitAck (flags :: t :: t0 :: t1 :: t2 :: t3 :: l0 :: l1 :: p) = .rejected .reservedFlags :=
  if_neg (mt (reservedFlagBits_eq_zero_iff flags).1 h)

end

theorem decodeWaitAck_of_short {fields : List Byte} (h : fields.length < 8) :
    decodeWaitAck fields = .rejected .shorterThanFixedPart := by
  unfold decodeWaitAck
  split
  · simp only [List.length_cons] at h
    omega
  · rfl

end Sys2Proof

namespace Sys2Proof.Machine

/-! ## The SEND_FRAME_WAIT_ACK command (44_handshake.md R104) -/

section
variable (d : Bool) (t : Byte) (T : Word) {p : List Byte} {s : State}

theorem exec_sendFrameWaitAck_of_gt (h : 255 < p.length) :
    exec (.sendFrameWaitAck d t T p) s = .next (respond .payloadTooLarge [0x00] s) :=
  congrArg Host.Outcome.next (if_pos h)

theorem exec_sendFrameWaitAck_of_fail (h : p.length ≤ 255) (ha : s.env.drawSend.1 = .fail) :
    exec (.sendFrameWaitAck d t T p) s = .next (respond .transportError [0x00] (txSend (wire t p) s).2) := by
  rw [exec, execSendFrameWaitAck, if_neg (show ¬ maxPayload < p.length from Nat.not_lt.2 h)]
  simp only [txSend_eq, ha]

theorem exec_sendFrameWaitAck_of_ok (h : p.length ≤ 255) (ha : s.env.drawSend.1 = .ok) :
    exec (.sendFrameWaitAck d t T p) s = .next
      { (txSend (wire t p) s).2 with waitTimeout := some (waitTimeoutOperand d T s), hs := .sent } := by
  rw [exec, execSendFrameWaitAck, if_neg (show ¬ maxPayload < p.length from Nat.not_lt.2 h)]
  simp only [txSend_eq, ha]

end

/-- Settles O29: a message is refused for its flags, for its payload's length or for its missing fields, and read
otherwise; run, the command has R104's three exits. -/
theorem sendFrameWaitAckCommand : Obligations.SendFrameWaitAckCommand := by
  unfold Obligations.SendFrameWaitAckCommand
  refine ⟨fun flags t t0 t1 t2 t3 l0 l1 p => ?_, fun fields h => ?_, fun d t T p s h => ?_, fun d t T p s h ha => ?_,
    fun d t T p s h ha => ?_⟩
  · split
    next h =>
      obtain ⟨hf, hp⟩ := h
      rw [decode_sendFrameWaitAck, decodeWaitAck_of_eq _ _ _ _ _ hf hp]
    next h =>
      by_cases hf : flags.toNat < 2
      · exact refusedAsMalformed_of_rejected (decodeWaitAck_of_ne t t0 t1 t2 t3 hf fun hp => h ⟨hf, hp⟩)
      · exact refusedAsMalformed_of_rejected (decodeWaitAck_of_reserved t t0 t1 t2 t3 hf)
  · exact refusedAsMalformed_of_rejected (decodeWaitAck_of_short h)
  · exact exec_sendFrameWaitAck_of_gt d t T h
  · rw [exec_sendFrameWaitAck_of_fail d t T h ha]
    simp [txSend_eq, respond, State.record, Status.code, ha]
  · rw [exec_sendFrameWaitAck_of_ok d t T h ha, txSend_eq, ha]
    rfl

/-! ## Which step HS selects (10_state.md R18) -/

theorem step_of_no_reset {s : State} (hr : s.env.resetNow = false) : step s = stepBlock s.passReset :=
  if_neg (Bool.eq_false_iff.1 hr)

theorem step_of_sent {s : State} (hr : s.env.resetNow = false) (hs : s.hs = .sent) :
    step s = stepSent s.passReset := by
  rw [step_of_no_reset hr, stepBlock, State.passReset_hs, hs]

theorem step_of_wCheck {s : State} (hr : s.env.resetNow = false) (hs : s.hs = .wCheck) :
    step s = stepCheck s.passReset := by
  rw [step_of_no_reset hr, stepBlock, State.passReset_hs, hs]

theorem step_of_wParse {s : State} (hr : s.env.resetNow = false) (hs : s.hs = .wParse) :
    step s = stepParse s.passReset := by
  rw [step_of_no_reset hr, stepBlock, State.passReset_hs, hs]

/-! ## The SENT step (44_handshake.md R105) -/

/-- Settles O30: SENT makes one tick request and keeps its answer. -/
theorem sentStepRecordsTick : Obligations.SentStepRecordsTick := by
  unfold Obligations.SentStepRecordsTick
  intro s hr hs
  rw [step_of_sent hr hs, stepSent, nowMs_eq]
  rfl

/-! ## The W_CHECK step (44_handshake.md R106) -/

section
variable {s : State} {start timeout : Word} (hst : s.startTick = some start) (hto : s.waitTimeout = some timeout)
include hst hto

theorem stepCheck_of_before (hb : beforeDeadline s.env.drawTick.1 start timeout = true) :
    stepCheck s = .next { (nowMs s).2 with hs := .wDrain } := by
  rw [stepCheck, hst, hto]
  exact if_pos hb

theorem stepCheck_of_not_before (hb : ¬ beforeDeadline s.env.drawTick.1 start timeout = true) :
    stepCheck s = .next { respond .timedOut [0x00] (nowMs s).2 with hs := .idle } := by
  rw [stepCheck, hst, hto]
  exact if_neg hb

end

/-- Settles O31: the rule's compare of numbers is the model's `beforeDeadline`, and W_CHECK goes by it. -/
theorem checkStepTestsDeadline : Obligations.CheckStepTestsDeadline := by
  unfold Obligations.CheckStepTestsDeadline
  intro s start timeout hr hs hst hto
  rw [step_of_wCheck hr hs, ← elapsed_toNat]
  split
  next h => exact stepCheck_of_before hst hto ((beforeDeadline_iff _ _ _).2 h)
  next h =>
    rw [stepCheck_of_not_before (s := s.passReset) hst hto (mt (beforeDeadline_iff _ _ _).1 h), nowMs_eq]
    simp [respond, State.record, Status.code]

/-! ## The W_PARSE step (44_handshake.md R108) -/

theorem stepParse_of_ack {s : State} {f : Frame} (hp : (parse s.acc).1 = .frame f) (hf : f.type = typeAck) :
    stepParse s = .next { respond .acked [0x01] (dropParsed s) with hs := .idle } := by
  rw [stepParse, hp]
  exact if_pos hf

theorem stepParse_of_other_frame {s : State} {f : Frame} (hp : (parse s.acc).1 = .frame f) (hf : f.type ≠ typeAck) :
    stepParse s = .next { dropParsed s with hs := .wParse } := by
  rw [stepParse, hp]
  exact if_neg hf

theorem stepParse_of_no_frame {s : State} {g : Bool} (hp : ∀ f, (parse s.acc).1 ≠ .frame f) (hg : s.got = some g) :
    stepParse s = .next { dropParsed s with hs := if g then .wCheck else .wSleep } := by
  cases h : (parse s.acc).1 with
  | frame f => exact absurd h (hp f)
  | incomplete => rw [stepParse, h, hg]; cases g <;> rfl
  | none => rw [stepParse, h, hg]; cases g <;> rfl

/-- Settles O33: an ACK, another frame, or none; in each case ACC keeps what `parse` leaves. -/
theorem parseStepActsOnType : Obligations.ParseStepActsOnType := by
  unfold Obligations.ParseStepActsOnType
  intro s hr hs
  rw [step_of_wParse hr hs]
  refine ⟨fun f hp hf => ?_, fun f hp hf => ?_, fun hp g hg => ?_⟩
  · rw [stepParse_of_ack (s := s.passReset) hp hf, dropParsed_eq]
    rfl
  · rw [stepParse_of_other_frame (s := s.passReset) hp hf, dropParsed_eq]
    rfl
  · rw [stepParse_of_no_frame (s := s.passReset) hp hg, dropParsed_eq]
    rfl

end Sys2Proof.Machine
end

section
/-! Proofs of the family 45_config.md: the commands CFG_READ (R118) and CFG_WRITE (R119), and the messages refused for
an illegal opcode (R120) or as malformed (R121, 30_encoding.md R62). -/

/-! ## Messages with a register number (30_encoding.md R57, R62) -/

namespace Sys2Proof

theorem decode_cfgRead (fields : List Byte) : decode (0x09 :: fields) = decodeCfgRead fields := rfl

theorem decode_cfgWrite (fields : List Byte) : decode (0x0A :: fields) = decodeCfgWrite fields := rfl

theorem decodeCfgRead_rejected_iff (fields : List Byte) :
    (∃ why, decodeCfgRead fields = .rejected why) ↔ fields.length ≠ 1 := by
  match fields with
  | [] => simp [decodeCfgRead]
  | [reg] => simp [decodeCfgRead]
  | _ :: _ :: _ => simp [decodeCfgRead]

theorem decodeCfgWrite_rejected_iff (fields : List Byte) :
    (∃ why, decodeCfgWrite fields = .rejected why) ↔ fields.length ≠ 5 := by
  match fields with
  | [] | [_] | [_, _] | [_, _, _] | [_, _, _, _] => simp [decodeCfgWrite]
  | [r, v0, v1, v2, v3] => simp [decodeCfgWrite]
  | _ :: _ :: _ :: _ :: _ :: _ :: _ => simp [decodeCfgWrite]

end Sys2Proof

namespace Sys2Proof.Machine

/-! ## The CFG_READ command (45_config.md R118) -/

theorem cfgRead_of_not_register {r : Byte} (h0 : r ≠ regAckTimeout) (h1 : r ≠ regPollInterval)
    (h2 : r ≠ regMaxPayload) (h3 : r ≠ regAccCount) (s : State) : cfgRead r s = none := by
  rw [cfgRead, if_neg h0, if_neg h1, if_neg h2, if_neg h3]

theorem exec_cfgRead_of_some {r : Byte} {v : Word} {s : State} (h : cfgRead r s = some v) :
    exec (.cfgRead r) s = .next (respond .ok (le32 v) s) := by
  rw [exec, execCfgRead, h]

theorem exec_cfgRead_of_none {r : Byte} {s : State} (h : cfgRead r s = none) :
    exec (.cfgRead r) s = .next (respond .badReg [] s) := by
  rw [exec, execCfgRead, h]

/-- Settles O49: one byte after the opcode, or another number of them; run, the command responds with the register's
value, or refuses a number that names none. -/
theorem cfgReadCommand : Obligations.CfgReadCommand := by
  unfold Obligations.CfgReadCommand
  refine ⟨fun r => rfl, fun fields h => ?_, fun r s => ?_⟩
  · obtain ⟨why, hd⟩ := (decodeCfgRead_rejected_iff fields).2 h
    exact refusedAsMalformed_of_rejected (by rw [decode_cfgRead, hd])
  · split
    case h_1 h =>
      obtain rfl : r = 0x00 := BitVec.eq_of_toNat_eq h
      exact exec_cfgRead_of_some (cfgRead_ackTimeout s)
    case h_2 h =>
      obtain rfl : r = 0x01 := BitVec.eq_of_toNat_eq h
      exact exec_cfgRead_of_some (cfgRead_pollInterval s)
    case h_3 h =>
      obtain rfl : r = 0x02 := BitVec.eq_of_toNat_eq h
      exact exec_cfgRead_of_some (cfgRead_maxPayload s)
    case h_4 h =>
      obtain rfl : r = 0x03 := BitVec.eq_of_toNat_eq h
      exact exec_cfgRead_of_some (cfgRead_accCount s)
    case h_5 h0 h1 h2 h3 =>
      exact exec_cfgRead_of_none
        (cfgRead_of_not_register (BitVec.toNat_ne.2 h0) (BitVec.toNat_ne.2 h1) (BitVec.toNat_ne.2 h2)
          (BitVec.toNat_ne.2 h3) s)

/-! ## The CFG_WRITE command (45_config.md R119) -/

theorem exec_cfgWrite_ackTimeout (v : Word) (s : State) :
    exec (.cfgWrite 0x00 v) s = .next (respond .ok [] { s with ackTimeout := v }) := rfl

theorem exec_cfgWrite_pollInterval (v : Word) (s : State) :
    exec (.cfgWrite 0x01 v) s = .next (respond .ok [] { s with pollInterval := v }) := rfl

theorem exec_cfgWrite_of_not_writable {r : Byte} (h0 : r ≠ regAckTimeout) (h1 : r ≠ regPollInterval) (v : Word)
    (s : State) : exec (.cfgWrite r v) s = .next (respond .badReg [] s) := by
  rw [exec, execCfgWrite, cfgWrite, if_neg h0, if_neg h1]

/-- Settles O50: five bytes after the opcode, or another number of them; run, the command writes one of the two
writable registers, or refuses the number. -/
theorem cfgWriteCommand : Obligations.CfgWriteCommand := by
  unfold Obligations.CfgWriteCommand
  refine ⟨fun r v0 v1 v2 v3 => ?_, fun fields h => ?_, fun r v s => ?_⟩
  · rw [decode_cfgWrite, ← u32le_eq_ofNat]
    rfl
  · obtain ⟨why, hd⟩ := (decodeCfgWrite_rejected_iff fields).2 h
    exact refusedAsMalformed_of_rejected (by rw [decode_cfgWrite, hd])
  · split
    case h_1 h =>
      obtain rfl : r = 0x00 := BitVec.eq_of_toNat_eq h
      exact exec_cfgWrite_ackTimeout v s
    case h_2 h =>
      obtain rfl : r = 0x01 := BitVec.eq_of_toNat_eq h
      exact exec_cfgWrite_pollInterval v s
    case h_3 h0 h1 => exact exec_cfgWrite_of_not_writable (BitVec.toNat_ne.2 h0) (BitVec.toNat_ne.2 h1) v s

end Sys2Proof.Machine

/-! ## Illegal opcodes (45_config.md R120) -/

namespace Sys2Proof

theorem decode_illegalZero (rest : List Byte) : decode (0x00 :: rest) = .ok (.illegalZero rest) := rfl

theorem decode_illegalHigh {op : Byte} (h : 0x0B ≤ op.toNat) (rest : List Byte) :
    decode (op :: rest) = .ok (.illegalHigh op rest) := by
  rw [decode]
  split
  case h_12 => rfl
  all_goals omega

end Sys2Proof

namespace Sys2Proof.Machine

theorem exec_illegalZero (rest : List Byte) (s : State) :
    exec (.illegalZero rest) s = .next (respond .illegalCmd [] s) := rfl

theorem exec_illegalHigh (op : Byte) (rest : List Byte) (s : State) :
    exec (.illegalHigh op rest) s = .next (respond .illegalCmd [] s) := rfl

/-- Settles O7: the opcode alone decides, and the command does nothing but respond. -/
theorem illegalOpcodesRefused : Obligations.IllegalOpcodesRefused := by
  unfold Obligations.IllegalOpcodesRefused
  exact ⟨decode_illegalZero, fun _ rest h => decode_illegalHigh h rest, exec_illegalZero, exec_illegalHigh⟩

/-! ## Malformed messages (30_encoding.md R62), by the format of their opcode -/

theorem exactBody_rejected_iff (n : Half) (body : List Byte) (i : Instr) :
    (∃ why, exactBody n body i = .rejected why) ↔ body.length ≠ n.toNat := by
  by_cases h : body.length = n.toNat
  · simp [exactBody_of_eq i h, h]
  · simp [exactBody_of_ne i h, h]

section
variable {code : Nat} (op : Byte) (fields : List Byte)

/-- Without a length field only one length is right. -/
theorem malformed_iff_of_no_length (hc : code ≠ 0x08) {n : Nat} :
    CommandFormat.Malformed ⟨code, n + 1, none⟩ (op :: fields) ↔ fields.length ≠ n := by
  change fields.length + 1 < n + 1 ∨ fields.length + 1 ≠ n + 1 ∨ (code = 0x08 ∧ _) ↔ _
  omega

theorem decodeBare_rejected_iff (hc : code ≠ 0x08) (i : Instr) :
    (∃ why, decodeBare i fields = .rejected why) ↔ CommandFormat.Malformed ⟨code, 1, none⟩ (op :: fields) := by
  rw [malformed_iff_of_no_length op fields hc]
  cases fields with
  | nil => simp [decodeBare]
  | cons x xs => simp [decodeBare]

theorem decodeData_rejected_iff (hc : code ≠ 0x08) (build : List Byte → Instr) :
    (∃ why, decodeData build fields = .rejected why) ↔ CommandFormat.Malformed ⟨code, 3, some 1⟩ (op :: fields) := by
  match fields with
  | [] | [_] => simp [decodeData, CommandFormat.Malformed]
  | n0 :: n1 :: data =>
    rw [decodeData, exactBody_rejected_iff, u16le_toNat]
    change _ ↔ data.length + 3 < 3 ∨ data.length + 3 ≠ 3 + n0.toNat + 256 * n1.toNat ∨ (code = 0x08 ∧ _)
    omega

theorem decodeFrame_rejected_iff (hc : code ≠ 0x08) (build : Byte → List Byte → Instr) :
    (∃ why, decodeFrame build fields = .rejected why) ↔ CommandFormat.Malformed ⟨code, 4, some 2⟩ (op :: fields) := by
  match fields with
  | [] | [_] | [_, _] => simp [decodeFrame, CommandFormat.Malformed]
  | type :: l0 :: l1 :: payload =>
    rw [decodeFrame, exactBody_rejected_iff, u16le_toNat]
    change _ ↔ payload.length + 4 < 4 ∨ payload.length + 4 ≠ 4 + l0.toNat + 256 * l1.toNat ∨ (code = 0x08 ∧ _)
    omega

theorem decodeWaitAck_rejected_iff :
    (∃ why, decodeWaitAck fields = .rejected why) ↔ CommandFormat.Malformed ⟨0x08, 9, some 7⟩ (op :: fields) := by
  by_cases hs : fields.length < 8
  · exact iff_of_true ⟨_, decodeWaitAck_of_short hs⟩ (.inl (Nat.succ_lt_succ hs))
  · match fields, Nat.le_of_not_lt hs with
    | flags :: t :: t0 :: t1 :: t2 :: t3 :: l0 :: l1 :: p, _ =>
      by_cases hf : flags.toNat < 2
      · rw [decodeWaitAck_of_flags t t0 t1 t2 t3 hf, exactBody_rejected_iff, u16le_toNat]
        change _ ↔ p.length + 9 < 9 ∨ p.length + 9 ≠ 9 + l0.toNat + 256 * l1.toNat ∨ (0x08 = 0x08 ∧ 2 ≤ flags.toNat)
        omega
      · exact iff_of_true ⟨_, decodeWaitAck_of_reserved t t0 t1 t2 t3 hf⟩ (.inr (.inr ⟨rfl, Nat.le_of_not_lt hf⟩))

end

/-- Of a message with a legal opcode the decoder rejects what R62 calls malformed. -/
theorem decode_rejected_iff_malformed {f : CommandFormat} (hf : f ∈ commandFormats) {op : Byte}
    (hop : op.toNat = f.opcode) (fields : List Byte) :
    (∃ why, decode (op :: fields) = .rejected why) ↔ f.Malformed (op :: fields) := by
  obtain rfl : op = BitVec.ofNat 8 f.opcode := by rw [← hop, BitVec.ofNat_toNat, BitVec.setWidth_eq]
  simp only [commandFormats, List.mem_cons, List.not_mem_nil, or_false] at hf
  obtain rfl | rfl | rfl | rfl | rfl | rfl | rfl | rfl | rfl | rfl := hf
  · exact decodeData_rejected_iff _ fields (by decide) .crc16
  · exact decodeFrame_rejected_iff _ fields (by decide) .construct
  · exact decodeBare_rejected_iff _ fields (by decide) .parse
  · exact decodeData_rejected_iff _ fields (by decide) .accAppend
  · exact decodeFrame_rejected_iff _ fields (by decide) .sendFrame
  · exact decodeBare_rejected_iff _ fields (by decide) .sendAck
  · exact decodeBare_rejected_iff _ fields (by decide) .sendStartWord
  · exact decodeWaitAck_rejected_iff _ fields
  · exact (decodeCfgRead_rejected_iff fields).trans (malformed_iff_of_no_length _ fields (by decide)).symm
  · exact (decodeCfgWrite_rejected_iff fields).trans (malformed_iff_of_no_length _ fields (by decide)).symm

theorem exists_commandFormat_of_not_illegal {n : Nat} (h0 : n ≠ 0) (hlt : n < 0x0B) :
    ∃ f ∈ commandFormats, n = f.opcode := by
  have hall : ∀ k < 0x0B, k ≠ 0 → ∃ f ∈ commandFormats, k = f.opcode := by decide
  exact hall n hlt h0

/-- An opcode without a format is illegal (R61), and no message with it is rejected. -/
theorem exists_commandFormat_of_rejected {op : Byte} {fields : List Byte} {why : Malformed}
    (h : decode (op :: fields) = .rejected why) : ∃ f ∈ commandFormats, op.toNat = f.opcode := by
  refine exists_commandFormat_of_not_illegal (fun h0 => ?_) (Nat.lt_of_not_le fun hhigh => ?_)
  · obtain rfl : op = 0x00 := BitVec.eq_of_toNat_eq h0
    cases h
  · rw [decode_illegalHigh hhigh] at h
    cases h

theorem decode_rejected_iff (m : List Byte) :
    (∃ why, decode m = .rejected why) ↔
      m = [] ∨ ∃ f ∈ commandFormats, m.head?.map BitVec.toNat = some f.opcode ∧ f.Malformed m := by
  cases m with
  | nil => exact iff_of_true ⟨.empty, rfl⟩ (.inl rfl)
  | cons op fields =>
    constructor
    · rintro ⟨why, h⟩
      obtain ⟨f, hf, hop⟩ := exists_commandFormat_of_rejected h
      exact .inr ⟨f, hf, congrArg some hop, (decode_rejected_iff_malformed hf hop fields).1 ⟨why, h⟩⟩
    · rintro (h | ⟨f, hf, hop, hm⟩)
      · cases h
      · exact (decode_rejected_iff_malformed hf (Option.some.inj hop) fields).2 hm

/-! ## The step that takes a malformed message (45_config.md R121) -/

theorem step_of_idle {s : State} (hr : s.env.resetNow = false) (hs : s.hs = .idle) : step s = stepIdle s.passReset := by
  rw [step_of_no_reset hr, stepBlock, State.passReset_hs, hs]

theorem stepIdle_of_command {s : State} {m : List Byte} {rest : List (List Byte)} (hc : s.env.commands = m :: rest) :
    stepIdle s = accept m { s with env := { s.env with commands := rest } } := by
  rw [stepIdle, hc]

/-- Settles O3: the decoder rejects by R62's three cases, format by format, and the step in IDLE runs the command
port's refusal on the message it takes. -/
theorem malformedMessagesRefused : Obligations.MalformedMessagesRefused := by
  unfold Obligations.MalformedMessagesRefused
  refine ⟨decode_rejected_iff, fun s m rest why hr hs hc hd => ?_⟩
  rw [step_of_idle hr hs, stepIdle_of_command (s := s.passReset) hc]
  exact refusedAsMalformed_of_rejected hd _

end Sys2Proof.Machine
end

section
/-! Proofs of the family 70_reset_and_hazards.md: what the first command after reset does (R137). -/

namespace Sys2Proof.Machine

/-! ## The first command after reset (70_reset_and_hazards.md R137) -/

/-- Nothing has crossed the ports at reset, so the record of a first command that only responds is its response. -/
theorem exec_reset_trace_of_responds {i : Instr} {st : Status} {data acc : List Byte}
    (h : exec i State.reset = .next (respond st data { State.reset with acc := acc })) :
    ∃ t, exec i State.reset = .next t ∧ t.trace = [.response (st.code :: data)] :=
  ⟨_, h, by rw [respond_trace, State.reset_trace, List.nil_append]⟩

theorem exec_cfgRead_reset_trace {r : Byte} {v : Word} (h : cfgRead r State.reset = some v) :
    ∃ t, exec (.cfgRead r) State.reset = .next t ∧ t.trace = [.response (0x00 :: le32 v)] :=
  exec_reset_trace_of_responds (exec_cfgRead_of_some h)

theorem exec_parse_reset_trace :
    ∃ t, exec .parse State.reset = .next t ∧ t.trace = [.response [0x03]] :=
  exec_reset_trace_of_responds (exec_parse_of_none parse_nil)

/-- Settles O56: each register read is the register's own rule at the reset state, and PARSE finds ACC empty; no command
stops in any state, and so none does at reset. -/
theorem firstCommandAfterReset : Obligations.FirstCommandAfterReset := by
  unfold Obligations.FirstCommandAfterReset
  exact ⟨exec_cfgRead_reset_trace (cfgRead_accCount State.reset),
    exec_cfgRead_reset_trace (cfgRead_pollInterval State.reset), exec_parse_reset_trace,
    fun i => exec_completes i State.reset⟩

end Sys2Proof.Machine
end

section
/-! Proofs of the family 'other', the encoding (30_encoding.md R57 to R63): which byte sequences each part of the
decoder accepts, and from these that decoder and encoder agree in both directions. -/

namespace Sys2Proof

/-! ## What each part of the decoder accepts (30_encoding.md R57, R58) -/

theorem decodeData_eq_ok_iff {build : List Byte → Instr} {fields : List Byte} {i : Instr} :
    decodeData build fields = .ok i ↔
      ∃ data, fitsLengthField data = true ∧ fields = length16 data ++ data ∧ i = build data := by
  constructor
  · intro h
    unfold decodeData at h
    split at h
    next n0 n1 data =>
      obtain ⟨hlen, rfl⟩ := exactBody_eq_ok h
      exact ⟨data, fitsLengthField_of_states hlen, by rw [length16_of_states hlen]; rfl, rfl⟩
    next => cases h
  · rintro ⟨data, hfit, rfl, rfl⟩
    obtain ⟨n0, n1, hl, hn⟩ := length16_states hfit
    rw [hl]
    exact exactBody_of_eq _ hn

theorem decodeFrame_eq_ok_iff {build : Byte → List Byte → Instr} {fields : List Byte} {i : Instr} :
    decodeFrame build fields = .ok i ↔
      ∃ type payload, fitsLengthField payload = true ∧ fields = type :: (length16 payload ++ payload) ∧
        i = build type payload := by
  constructor
  · intro h
    unfold decodeFrame at h
    split at h
    next type l0 l1 payload =>
      obtain ⟨hlen, rfl⟩ := exactBody_eq_ok h
      exact ⟨type, payload, fitsLengthField_of_states hlen, by rw [length16_of_states hlen]; rfl, rfl⟩
    next => cases h
  · rintro ⟨type, payload, hfit, rfl, rfl⟩
    obtain ⟨l0, l1, hl, hn⟩ := length16_states hfit
    rw [hl]
    exact exactBody_of_eq _ hn

theorem decodeBare_eq_ok_iff {i j : Instr} {fields : List Byte} :
    decodeBare i fields = .ok j ↔ fields = [] ∧ j = i := by
  cases fields with
  | nil => simp [decodeBare, eq_comm]
  | cons x xs => simp [decodeBare]

theorem flagsByte_lt (useDefault : Bool) : (flagsByte useDefault).toNat < 2 := by
  cases useDefault <;> decide

@[simp] theorem useDefaultBit_flagsByte (useDefault : Bool) : useDefaultBit (flagsByte useDefault) = useDefault := by
  cases useDefault <;> rfl

/-- With the reserved bits clear FLAGS is the byte of its USE_DEFAULT bit (30_encoding.md R58). -/
theorem flagsByte_useDefaultBit {flags : Byte} (h : flags.toNat < 2) : flagsByte (useDefaultBit flags) = flags := by
  obtain rfl | rfl : flags = 0x00 ∨ flags = 0x01 := by bv_omega
  · rfl
  · rfl

theorem decodeWaitAck_eq_ok_iff {fields : List Byte} {i : Instr} :
    decodeWaitAck fields = .ok i ↔
      ∃ useDefault type timeout payload, fitsLengthField payload = true ∧
        fields = flagsByte useDefault :: type :: (le32 timeout ++ length16 payload ++ payload) ∧
        i = .sendFrameWaitAck useDefault type timeout payload := by
  constructor
  · intro h
    unfold decodeWaitAck at h
    split at h
    next flags type t0 t1 t2 t3 l0 l1 payload =>
      split at h
      next hflags =>
        obtain ⟨hlen, rfl⟩ := exactBody_eq_ok h
        refine ⟨useDefaultBit flags, type, u32le t0 t1 t2 t3, payload, fitsLengthField_of_states hlen, ?_, rfl⟩
        rw [flagsByte_useDefaultBit ((reservedFlagBits_eq_zero_iff flags).1 hflags), le32_u32le,
          length16_of_states hlen]
        rfl
      next => cases h
    next => cases h
  · rintro ⟨useDefault, type, timeout, payload, hfit, rfl, rfl⟩
    obtain ⟨l0, l1, hl, hn⟩ := length16_states hfit
    rw [hl, le32]
    simp only [List.cons_append, List.nil_append]
    rw [decodeWaitAck_of_flags type _ _ _ _ (flagsByte_lt useDefault), exactBody_of_eq _ hn, useDefaultBit_flagsByte,
      u32le_le32]

theorem decodeCfgRead_eq_ok_iff {fields : List Byte} {i : Instr} :
    decodeCfgRead fields = .ok i ↔ ∃ reg, fields = [reg] ∧ i = .cfgRead reg := by
  match fields with
  | [] => simp [decodeCfgRead]
  | [reg] => simp [decodeCfgRead, eq_comm]
  | _ :: _ :: _ => simp [decodeCfgRead]

theorem decodeCfgWrite_eq_ok_iff {fields : List Byte} {i : Instr} :
    decodeCfgWrite fields = .ok i ↔ ∃ reg value, fields = reg :: le32 value ∧ i = .cfgWrite reg value := by
  constructor
  · intro h
    unfold decodeCfgWrite at h
    split at h
    next reg v0 v1 v2 v3 =>
      cases h
      exact ⟨reg, u32le v0 v1 v2 v3, by rw [le32_u32le], rfl⟩
    next => cases h
    next => cases h
  · rintro ⟨reg, value, rfl, rfl⟩
    rw [le32, decodeCfgWrite, u32le_le32]

/-! ## Decoder and encoder agree (30_encoding.md R57, R61, R63) -/

/-- The message of a well-formed instruction decodes to it. -/
theorem decode_encode {i : Instr} (h : i.wellFormed = true) : decode (encode i) = .ok i := by
  cases i with
  | crc16 data | accAppend data => exact decodeData_eq_ok_iff.2 ⟨data, h, rfl, rfl⟩
  | construct type payload | sendFrame type payload =>
    exact decodeFrame_eq_ok_iff.2 ⟨type, payload, h, rfl, rfl⟩
  | parse | sendAck | sendStartWord => rfl
  | sendFrameWaitAck useDefault type timeout payload =>
    exact decodeWaitAck_eq_ok_iff.2 ⟨useDefault, type, timeout, payload, h, rfl, rfl⟩
  | cfgRead reg => exact decodeCfgRead_eq_ok_iff.2 ⟨reg, rfl, rfl⟩
  | cfgWrite reg value => exact decodeCfgWrite_eq_ok_iff.2 ⟨reg, value, rfl, rfl⟩
  | illegalZero rest => exact decode_illegalZero rest
  | illegalHigh opcode rest => exact decode_illegalHigh (of_decide_eq_true h) rest

/-- A message that decodes is the message of a well-formed instruction. -/
theorem wellFormed_and_encode_of_decode {m : List Byte} {i : Instr} (h : decode m = .ok i) :
    i.wellFormed = true ∧ encode i = m := by
  cases m with
  | nil => cases h
  | cons op fields =>
    rw [decode] at h
    split at h
    case h_1 hop =>
      obtain rfl : op = 0x00 := BitVec.eq_of_toNat_eq hop
      cases h
      exact ⟨rfl, rfl⟩
    case h_2 hop | h_5 hop =>
      obtain ⟨data, hfit, rfl, rfl⟩ := decodeData_eq_ok_iff.1 h
      exact ⟨hfit, congrArg (· :: _) (BitVec.eq_of_toNat_eq hop.symm)⟩
    case h_3 hop | h_6 hop =>
      obtain ⟨type, payload, hfit, rfl, rfl⟩ := decodeFrame_eq_ok_iff.1 h
      exact ⟨hfit, congrArg (· :: _) (BitVec.eq_of_toNat_eq hop.symm)⟩
    case h_4 hop | h_7 hop | h_8 hop =>
      obtain ⟨rfl, rfl⟩ := decodeBare_eq_ok_iff.1 h
      exact ⟨rfl, congrArg (· :: _) (BitVec.eq_of_toNat_eq hop.symm)⟩
    case h_9 hop =>
      obtain ⟨useDefault, type, timeout, payload, hfit, rfl, rfl⟩ := decodeWaitAck_eq_ok_iff.1 h
      exact ⟨hfit, congrArg (· :: _) (BitVec.eq_of_toNat_eq hop.symm)⟩
    case h_10 hop =>
      obtain ⟨reg, rfl, rfl⟩ := decodeCfgRead_eq_ok_iff.1 h
      exact ⟨rfl, congrArg (· :: _) (BitVec.eq_of_toNat_eq hop.symm)⟩
    case h_11 hop =>
      obtain ⟨reg, value, rfl, rfl⟩ := decodeCfgWrite_eq_ok_iff.1 h
      exact ⟨rfl, congrArg (· :: _) (BitVec.eq_of_toNat_eq hop.symm)⟩
    case h_12 =>
      have hop : 0x0B ≤ op.toNat := by
        simp only [imp_false] at *
        omega
      cases h
      exact ⟨decide_eq_true hop, rfl⟩

/-- Settles O1: format by format, the encoder's message is one that the decoder's part for it accepts. -/
theorem decodeAfterEncode : Obligations.DecodeAfterEncode := by
  unfold Obligations.DecodeAfterEncode
  exact fun _ => decode_encode

/-- Settles O2: opcode by opcode, the decoder accepts nothing but the encoder's message. -/
theorem encodeAfterDecode : Obligations.EncodeAfterDecode := by
  unfold Obligations.EncodeAfterDecode
  exact fun _ _ => wellFormed_and_encode_of_decode

/-- Settles O4: each message is the one the encoder writes for its instruction, which decodes back. -/
theorem sampleMessagesDecode : Obligations.SampleMessagesDecode := by
  unfold Obligations.SampleMessagesDecode
  exact ⟨decode_encode (i := .crc16 [0x31, 0x32]) rfl,
    decode_encode (i := .construct 0x04 [0x01, 0x02, 0x03]) rfl,
    decode_encode (i := .parse) rfl,
    decode_encode (i := .accAppend [0x12]) rfl,
    decode_encode (i := .sendFrame 0x05 []) rfl,
    decode_encode (i := .sendAck) rfl,
    decode_encode (i := .sendStartWord) rfl,
    decode_encode (i := .sendFrameWaitAck false 0x04 500 [0x01, 0x02, 0x03]) rfl,
    decode_encode (i := .sendFrameWaitAck true 0x06 0 [0x10, 0x20]) rfl,
    decode_encode (i := .cfgRead 0x03) rfl,
    decode_encode (i := .cfgWrite 0x00 500) rfl,
    decode_encode (i := .illegalZero []) rfl,
    decode_encode (i := .illegalHigh 0x0B []) rfl,
    decode_encode (i := .illegalHigh 0xFF [0x00, 0x00]) rfl⟩

end Sys2Proof
end

section
/-! Proofs of the family 'other', the invariants: what a step from IDLE adds to the record of the ports, and that every
step keeps `State.Inv` and the order of events at the ports. -/

namespace Sys2Proof.Machine

/-! ## What a step from IDLE adds to the record (10_state.md R29, R30) -/

/-- What a command that is over has added to the record: at most one frame offered to the transport, then its response,
whose status is not one that ends a wait. -/
def EndsCommand (es : List PortEvent) : Prop :=
  ∃ (st : Status) (data : List Byte), (st ≠ .acked ∧ st ≠ .timedOut) ∧
    (es = [.response (st.code :: data)] ∨ ∃ bs a, es = [.txSend bs a, .response (st.code :: data)])

theorem endsCommand_of_response {st : Status} {data : List Byte} (h : st ≠ .acked ∧ st ≠ .timedOut) :
    EndsCommand [.response (st.code :: data)] :=
  ⟨st, data, h, .inl rfl⟩

/-- A command begins a wait with one frame sent, or is over when it has run. -/
theorem ExecEffect.trace_eq {i : Instr} {s t : State} (he : ExecEffect i s t) :
    (t.hs = .sent ∧ ∃ bs, t.trace = s.trace ++ [.txSend bs .ok]) ∨
    (t.hs = s.hs ∧ ∃ es, EndsCommand es ∧ t.trace = s.trace ++ es) := by
  cases he with
  | responds st data hst => exact .inr ⟨rfl, _, endsCommand_of_response ⟨hst.1, hst.2.1⟩, rfl⟩
  | parses st data hi hst =>
    obtain rfl | rfl | rfl := hst <;> exact .inr ⟨rfl, _, endsCommand_of_response (by decide), rfl⟩
  | appends | writesAckTimeout | writesPollInterval =>
    exact .inr ⟨rfl, _, endsCommand_of_response (st := .ok) (by decide), rfl⟩
  | sends bs data a e hn st hst =>
    refine .inr ⟨rfl, _, ⟨st, data, ?_, .inr ⟨bs, a, rfl⟩⟩, List.append_assoc _ _ _⟩
    obtain rfl | rfl := hst <;> decide
  | waits bs => exact .inl ⟨rfl, bs, rfl⟩

/-- A step from IDLE waits for a message, or takes one and begins a wait, or takes one and is over with it. -/
theorem step_idle_cases {s t : State} (h : step s = .next t) (hr : s.env.resetNow = false) (hs : s.hs = .idle) :
    t = s.passReset ∨
    (t.hs = .sent ∧ ∃ m bs, t.trace = s.trace ++ [.command m, .txSend bs .ok]) ∨
    (t.hs = .idle ∧ ∃ m es, EndsCommand es ∧ t.trace = s.trace ++ .command m :: es) := by
  cases step_effect h with
  | idles => exact .inl rfl
  | rejects m =>
    exact .inr (.inr ⟨hs, m, _, endsCommand_of_response (st := .malformedCmd) (by decide), List.append_assoc _ _ _⟩)
  | runs m rest i t _ _ _ _ he =>
    rcases he.trace_eq with ⟨ht, bs, htr⟩ | ⟨ht, es, hes, htr⟩
    · exact .inr (.inl ⟨ht, m, bs, htr.trans (List.append_assoc _ _ _)⟩)
    · exact .inr (.inr ⟨ht.trans hs, m, es, hes, htr.trans (List.append_assoc _ _ _)⟩)
  | _ => simp_all

/-! ## The order of events at the ports (70_reset_and_hazards.md R136) -/

/-- The order is kept by new events that lead an observer from what HS was to what HS is. -/
theorem portsInOrder_of_append {s t : State} {es : List PortEvent} (hs : s.PortsInOrder)
    (ht : t.trace = s.trace ++ es) (hes : es.foldl portOrder (some (!s.portReady)) = some (!t.portReady)) :
    t.PortsInOrder := by
  unfold State.PortsInOrder at hs ⊢
  rw [ht, List.foldl_append, hs, hes]

/-- A command that is over leaves none in progress. -/
theorem foldl_portOrder_of_endsCommand {es : List PortEvent} (h : EndsCommand es) :
    es.foldl portOrder (some true) = some false := by
  obtain ⟨st, data, -, rfl | ⟨bs, a, rfl⟩⟩ := h <;> rfl

/-- Settles O60: a step from IDLE takes a command and is over with it or begins its wait; a step of a wait makes
requests only, and its response comes where HS goes to IDLE. -/
theorem stepKeepsPortsInOrder : Obligations.StepKeepsPortsInOrder := by
  unfold Obligations.StepKeepsPortsInOrder
  intro s t hs h
  by_cases hidle : s.env.resetNow = false ∧ s.hs = .idle
  · obtain ⟨hr, hi⟩ := hidle
    rcases step_idle_cases h hr hi with rfl | ⟨ht, m, bs, htr⟩ | ⟨ht, m, es, hes, htr⟩
    · exact hs
    · exact portsInOrder_of_append hs htr (by simp [State.portReady, hi, ht, portOrder])
    · refine portsInOrder_of_append hs htr ?_
      simpa [State.portReady, hi, ht, portOrder] using foldl_portOrder_of_endsCommand hes
  · cases step_effect h with
    | reset => exact portsInOrder_of_append hs rfl (by simp [State.portReady, portOrder])
    | idles hr hi | rejects _ _ _ hr hi | runs _ _ _ _ hr hi => exact absurd ⟨hr, hi⟩ hidle
    | samples _ _ _ hw | continues _ _ _ _ _ hw | timesOut _ _ _ _ _ hw | drains _ _ _ hw | acked _ _ hw =>
      exact portsInOrder_of_append hs rfl (by simp [State.portReady, hw, portOrder])
    | discards => exact hs
    | noFrame got _ hw =>
      exact portsInOrder_of_append hs (List.append_nil _).symm (by cases got <;> simp [State.portReady, hw])
    | wakes _ _ hw | sleepsOn _ _ hw =>
      exact portsInOrder_of_append hs rfl (by cases s.sleeping <;> simp [State.portReady, hw, portOrder])

/-! ## The invariant (20_memory.md R36, 10_state.md R18, 00_scope.md R16) -/

/-- In IDLE the invariant asks only for legal parameters, the capacity of ACC, and no sleep outstanding. -/
theorem State.inv_of_idle {s : State} (hs : s.hs = .idle) (hp : s.params.InRange)
    (hfit : s.acc.length ≤ s.params.accCapacity) (hsl : s.sleeping = false) : s.Inv where
  params := hp
  acc_fits := hfit
  hs_used := by simp [hs]
  timeout_held := fun h => absurd hs h
  start_held := fun h => absurd hs h
  got_held := by simp [hs]
  sleep_without_bytes := by simp [hs]
  sleep_only_there := by simp [hsl]

theorem State.Inv.not_sleeping {s : State} (hi : s.Inv) (hs : s.hs ≠ .wSleep) : s.sleeping = false :=
  Bool.eq_false_iff.2 fun h => hs (hi.sleep_only_there h)

theorem parse_length_le (A : List Byte) : (parse A).2.length ≤ A.length :=
  (parse_suffix A).length_le

/-- A command run in IDLE keeps the invariant. -/
theorem ExecEffect.inv {i : Instr} {s t : State} (he : ExecEffect i s t) (hs : s.hs = .idle) (hi : s.Inv) : t.Inv := by
  have hsl : s.sleeping = false := hi.not_sleeping (by simp [hs])
  cases he with
  | responds | sends | writesAckTimeout | writesPollInterval => exact State.inv_of_idle hs hi.params hi.acc_fits hsl
  | parses => exact State.inv_of_idle hs hi.params ((parse_length_le _).trans hi.acc_fits) hsl
  | appends data _ hfit =>
    exact State.inv_of_idle hs hi.params ((accAppend_length data s).trans_le hfit) hsl
  | waits =>
    exact {
      params := hi.params
      acc_fits := hi.acc_fits
      hs_used := by simp
      timeout_held := fun _ => rfl
      start_held := fun _ h => absurd rfl h
      got_held := nofun
      sleep_without_bytes := nofun
      sleep_only_there := by simp [hsl] }

/-- A drain leaves ACC within its capacity: it asks for no more than the free space. -/
theorem length_append_drain_le {s : State} {bs : List Byte} (hi : s.Inv) (h : bs.length ≤ drainSize s) :
    (s.acc ++ bs).length ≤ s.params.accCapacity := by
  have hspace := drainSize_le_space s
  have hfit := hi.acc_fits
  rw [List.length_append]
  omega

/-- A state past SENT meets the invariant where ACC still fits, HS is a code of the wait past SENT, and GOT and the
outstanding sleep are as that code asks; the registers are those of the state before. -/
theorem State.Inv.of_wait {s t : State} (hi : s.Inv) (hs : s.hs ≠ .idle) (hp : t.params = s.params)
    (hto : t.waitTimeout = s.waitTimeout) (hfit : t.acc.length ≤ s.params.accCapacity)
    (hst : t.startTick.isSome) (hused : t.hs ≠ .unused6 ∧ t.hs ≠ .unused7)
    (hgot : t.hs = .wParse → t.got.isSome) (hsleep : t.hs = .wSleep → t.got = some false)
    (hsl : t.sleeping = true → t.hs = .wSleep) : t.Inv where
  params := hp ▸ hi.params
  acc_fits := hp ▸ hfit
  hs_used := hused
  timeout_held := fun _ => hto ▸ hi.timeout_held hs
  start_held := fun _ _ => hst
  got_held := hgot
  sleep_without_bytes := hsleep
  sleep_only_there := hsl

/-- Settles O58: a step that leads to IDLE leaves a state with nothing to hold but its capacity; a step of a wait writes
the register that the next one reads. -/
theorem stepKeepsInvariant : Obligations.StepKeepsInvariant := by
  unfold Obligations.StepKeepsInvariant
  intro s t hi h
  have hawake (hs : s.hs ≠ .wSleep) (x : HandshakeState) : s.sleeping = true → x = .wSleep := by
    simp [hi.not_sleeping hs]
  have hparsed : (parse s.acc).2.length ≤ s.params.accCapacity := (parse_length_le _).trans hi.acc_fits
  have hheld (hs : s.hs ≠ .idle) (hs' : s.hs ≠ .sent) := hi.start_held hs hs'
  cases step_effect h with
  | reset => exact State.inv_of_idle rfl hi.params (Nat.zero_le _) rfl
  | idles _ hs | rejects _ _ _ _ hs =>
    exact State.inv_of_idle hs hi.params hi.acc_fits (hi.not_sleeping (by simp [hs]))
  | runs m rest _ _ _ hs _ _ he =>
    exact he.inv hs (State.inv_of_idle hs hi.params hi.acc_fits (hi.not_sleeping (by simp [hs])))
  | samples _ _ _ hs =>
    exact hi.of_wait (by simp [hs]) rfl rfl hi.acc_fits rfl (by simp) nofun nofun (hawake (by simp [hs]) _)
  | continues _ _ _ _ _ hs =>
    exact hi.of_wait (by simp [hs]) rfl rfl hi.acc_fits (hheld (by simp [hs]) (by simp [hs])) (by simp) nofun nofun
      (hawake (by simp [hs]) _)
  | timesOut _ _ _ _ _ hs => exact State.inv_of_idle rfl hi.params hi.acc_fits (hi.not_sleeping (by simp [hs]))
  | drains bs _ _ hs _ hle =>
    exact hi.of_wait (by simp [hs]) rfl rfl (length_append_drain_le hi hle) (hheld (by simp [hs]) (by simp [hs]))
      (by simp) (fun _ => rfl) nofun (hawake (by simp [hs]) _)
  | acked _ _ hs => exact State.inv_of_idle rfl hi.params hparsed (hi.not_sleeping (by simp [hs]))
  | discards _ _ hs =>
    exact hi.of_wait (by simp [hs]) rfl rfl hparsed (hheld (by simp [hs]) (by simp [hs])) hi.hs_used hi.got_held
      hi.sleep_without_bytes hi.sleep_only_there
  | noFrame got _ hs _ hg =>
    exact hi.of_wait (by simp [hs]) rfl rfl hparsed (hheld (by simp [hs]) (by simp [hs])) (by cases got <;> simp)
      (by cases got <;> simp) (by cases got <;> simp [hg]) (hawake (by simp [hs]) _)
  | wakes _ _ hs =>
    exact hi.of_wait (by simp [hs]) rfl rfl hi.acc_fits (hheld (by simp [hs]) (by simp [hs])) (by simp) nofun nofun
      nofun
  | sleepsOn _ _ hs =>
    exact hi.of_wait (by simp [hs]) rfl rfl hi.acc_fits (hheld (by simp [hs]) (by simp [hs])) hi.hs_used hi.got_held
      hi.sleep_without_bytes (fun _ => hs)

theorem Params.ofConfig_inRange : Params.ofConfig.InRange where
  capacity_low := Nat.le_add_right _ _
  capacity_high := by
    have := Config.accCapacityAbove261.isLt
    simp only [Params.ofConfig]
    omega
  chunk_low := Nat.le_add_right _ _
  chunk_high := by
    have := Config.rxChunkAbove1.isLt
    simp only [Params.ofConfig]
    omega

/-- Settles O57: at reset HS is IDLE, ACC and the record are empty, and the parameters are any in their ranges. -/
theorem resetMeetsInvariant : Obligations.ResetMeetsInvariant := by
  unfold Obligations.ResetMeetsInvariant
  exact ⟨State.inv_of_idle State.reset_hs Params.ofConfig_inRange (Nat.zero_le _) State.reset_sleeping, rfl⟩

end Sys2Proof.Machine
end

section
/-! Proofs of the family 'other', single steps: what the step in each state of HS does, what it answers with, and what
no step of a wait does. -/

namespace Sys2Proof.Machine

/-! ## The environment's answers (43_transmit.md R92, R93; log 1) -/

/-- A free receive answer is cut to what is asked (R93). -/
theorem Env.drawReceive_free_length_le {e : Env} (n : Nat) (h : e.receives = []) :
    (e.drawReceive n).1.length ≤ n := by
  rw [Env.drawReceive, h]
  exact List.length_take_le _ _

/-- Settles O25: each draw looks at the head of its script. -/
theorem environmentAnswers : Obligations.EnvironmentAnswers := by
  unfold Obligations.EnvironmentAnswers
  refine ⟨fun e a rest h => ?_, fun e n bs rest h => ?_, fun e t rest h => ?_, fun e done rest h => ?_,
    fun e n h => Env.drawReceive_free_length_le n h⟩
  · rw [Env.drawSend, h]
  · rw [Env.drawReceive, h]
  · rw [Env.drawTick, h]
  · rw [Env.drawSleepDone, h]

/-- The place in the reset schedule does not matter to a receive. -/
theorem drawReceive_passReset (n : Nat) (s : State) :
    (s.passReset.env.drawReceive n).1 = (s.env.drawReceive n).1 := by
  simp only [State.passReset_env, Env.drawReceive]
  split <;> rfl

/-! ## Commands (45_config.md R117, 41_framer.md R73, 60_exceptions.md R130) -/

/-- Settles O5: the step in IDLE is the command port's step, which runs what the message decodes to. -/
theorem stepRunsDecodedCommand : Obligations.StepRunsDecodedCommand := by
  unfold Obligations.StepRunsDecodedCommand
  intro s m rest i hr hs hc hd
  rw [step_of_idle hr hs, stepIdle_of_command (s := s.passReset) hc, accept, hd]
  rfl

theorem newEvents_respond (st : Status) (data : List Byte) (s : State) :
    newEvents s (respond st data s) = [.response (st.code :: data)] :=
  newEvents_of_append rfl

/-- A command that only responds, the same in every state, adds the same events in every state. -/
theorem newEvents_eq_of_only_responds {i : Instr} {st : Status} {data : List Byte}
    (hi : ∀ s, exec i s = .next (respond st data s)) {s s' t t' : State} (h : exec i s = .next t)
    (h' : exec i s' = .next t') : newEvents s t = newEvents s' t' := by
  rw [hi] at h h'
  cases h
  cases h'
  rw [newEvents_respond, newEvents_respond]

/-- Settles O14: both commands only respond, and their response is a function of their operands. -/
theorem pureCommandsReadNoState : Obligations.PureCommandsReadNoState := by
  unfold Obligations.PureCommandsReadNoState
  rintro i s s' t t' (⟨data, rfl⟩ | ⟨ty, p, rfl⟩) h h'
  · exact newEvents_eq_of_only_responds (exec_crc16 data) h h'
  · rcases Nat.lt_or_ge 255 p.length with hp | hp
    · exact newEvents_eq_of_only_responds (exec_construct_of_gt ty hp) h h'
    · exact newEvents_eq_of_only_responds (exec_construct_of_le ty hp) h h'

/-- Settles O53: of what a command can do, only the case that does nothing but respond has a status from 12 to 16. -/
theorem refusedCommandsChangeNothing : Obligations.RefusedCommandsChangeNothing := by
  unfold Obligations.RefusedCommandsChangeNothing
  intro i s t c d h hm hlow _
  cases exec_effect h with
  | responds st data =>
    rw [newEvents_respond, List.mem_singleton] at hm
    cases hm
    rfl
  | parses st data _ hst =>
    rw [newEvents_of_append rfl, List.mem_singleton] at hm
    cases hm
    obtain rfl | rfl | rfl := hst <;> exact absurd hlow (by decide)
  | appends | writesAckTimeout | writesPollInterval =>
    rw [newEvents_of_append rfl, List.mem_singleton] at hm
    cases hm
    exact absurd hlow (by decide)
  | sends bs data a e _ st hst =>
    rw [newEvents_of_append (List.append_assoc _ _ _)] at hm
    obtain hm | hm := List.mem_pair.1 hm
    · cases hm
    · cases hm
      obtain rfl | rfl := hst <;> exact absurd hlow (by decide)
  | waits =>
    rw [newEvents_of_append rfl, List.mem_singleton] at hm
    cases hm

/-! ## W_DRAIN, W_SLEEP and reset (44_handshake.md R107, R109; 70_reset_and_hazards.md R135) -/

theorem step_of_wDrain {s : State} (hr : s.env.resetNow = false) (hs : s.hs = .wDrain) :
    step s = stepDrain s.passReset := by
  rw [step_of_no_reset hr, stepBlock, State.passReset_hs, hs]

theorem step_of_wSleep {s : State} (hr : s.env.resetNow = false) (hs : s.hs = .wSleep) :
    step s = stepSleep s.passReset := by
  rw [step_of_no_reset hr, stepBlock, State.passReset_hs, hs]

theorem step_of_reset {s : State} (hr : s.env.resetNow = true) : step s = .next (resetAction s.passReset) :=
  if_pos hr

theorem gotFlag_eq (bs : List Byte) : gotFlag bs = decide (bs ≠ []) :=
  decide_eq_decide.2 List.length_pos_iff

/-- Settles O32: one receive request, inside the transport's contract or not. -/
theorem drainStepAppends : Obligations.DrainStepAppends := by
  unfold Obligations.DrainStepAppends
  rintro s _ hr hs rfl
  change ((s.passReset.env.drawReceive (drainSize s)).1.length ≤ drainSize s → _) ∧
    (drainSize s < (s.passReset.env.drawReceive (drainSize s)).1.length → _)
  rw [step_of_wDrain hr hs, stepDrain, drainSize_passReset]
  refine ⟨fun hle => ?_, fun hlt => ?_⟩
  · rw [rxReceive_of_le _ _ hle, ← gotFlag_eq]
    rfl
  · rw [rxReceive_of_lt _ _ hlt]

/-- Settles O34: one answer of the time source, by which the step stays or goes on. -/
theorem sleepStepWaits : Obligations.SleepStepWaits := by
  unfold Obligations.SleepStepWaits
  intro s hr hs
  rw [step_of_wSleep hr hs, stepSleep, sleepMs_eq]
  cases s.passReset.env.drawSleepDone.1 with
  | false => rw [← hs]; rfl
  | true => rfl

/-- Settles O55: the reset action, field by field. -/
theorem resetFromAnyState : Obligations.ResetFromAnyState := by
  unfold Obligations.ResetFromAnyState
  exact fun s hr => ⟨_, step_of_reset hr, rfl, rfl, rfl, rfl, rfl, rfl, rfl, rfl, rfl, rfl, rfl,
    newEvents_of_append rfl⟩

/-! ## Every state of HS has its next states (44_handshake.md R98) -/

/-- Settles O36: state by state, from what the step in each can do. -/
theorem handshakeTransitions : Obligations.HandshakeTransitions := by
  unfold Obligations.HandshakeTransitions
  intro s t hr h
  cases hs : s.hs with
  | idle =>
    rcases step_idle_cases h hr hs with rfl | ⟨ht, -⟩ | ⟨ht, -⟩
    · exact .inl hs
    · exact .inr ht
    · exact .inl ht
  | sent => exact (step_sent h hs hr).1
  | wCheck =>
    obtain ⟨_, _, -, -, ⟨-, ht⟩ | ⟨-, ht⟩⟩ := step_check h hs hr
    · exact .inl ht
    · exact .inr ht
  | wDrain => exact step_drain h hs hr
  | wParse =>
    rcases step_parse h hs hr with ⟨ht, -⟩ | ht | ht | ht
    · exact .inr (.inl ht)
    · exact .inr (.inr (.inl ht))
    · exact .inr (.inr (.inr ht))
    · exact .inl ht
  | wSleep => exact step_sleep h hs hr
  | unused6 | unused7 => simp [step_of_no_reset hr, stepBlock, hs] at h

theorem accept_completes (m : List Byte) (s : State) : ∃ t, accept m s = .next t := by
  unfold accept
  split
  · exact exec_completes _ _
  · exact ⟨_, rfl⟩

/-- Settles O59: each state of HS finds the registers it reads written, and the transport's contract is all that a drain
needs. -/
theorem invariantStatesStep : Obligations.InvariantStatesStep := by
  unfold Obligations.InvariantStatesStep
  intro s hi hx
  cases hr : s.env.resetNow with
  | true => exact ⟨_, step_of_reset hr⟩
  | false =>
    cases hs : s.hs with
    | idle =>
      rw [step_of_idle hr hs]
      cases hc : s.env.commands with
      | nil => exact ⟨_, by rw [← step_of_idle hr hs, step_idle_waits hr hs hc]⟩
      | cons m rest =>
        rw [stepIdle_of_command (s := s.passReset) hc]
        exact accept_completes m _
    | sent => exact ⟨_, step_of_sent hr hs⟩
    | wCheck =>
      obtain ⟨timeout, hto⟩ := Option.isSome_iff_exists.1 (hi.timeout_held (by simp [hs]))
      obtain ⟨start, hst⟩ := Option.isSome_iff_exists.1 (hi.start_held (by simp [hs]) (by simp [hs]))
      exact ⟨_, checkStepTestsDeadline s start timeout hr hs hst hto⟩
    | wDrain =>
      have hle : (s.passReset.env.drawReceive (drainSize s)).1.length ≤ drainSize s :=
        (drawReceive_passReset _ s).symm ▸ hx hs
      exact ⟨_, (drainStepAppends s _ hr hs rfl).1 hle⟩
    | wParse =>
      obtain ⟨got, hg⟩ := Option.isSome_iff_exists.1 (hi.got_held hs)
      obtain ⟨hack, hother, hnone⟩ := parseStepActsOnType s hr hs
      by_cases hp : ∃ f, (parse s.acc).1 = .frame f
      · obtain ⟨f, hp⟩ := hp
        by_cases hf : f.type = 0x02
        · exact ⟨_, hack f hp hf⟩
        · exact ⟨_, hother f hp hf⟩
      · exact ⟨_, hnone (not_exists.1 hp) got hg⟩
    | wSleep => exact ⟨_, sleepStepWaits s hr hs⟩
    | unused6 => exact absurd hs hi.hs_used.1
    | unused7 => exact absurd hs hi.hs_used.2

/-! ## What a step responds (30_encoding.md R60; 44_handshake.md R106, R108) -/

/-- Where a response comes from: a command that is over, a decoded ACK, or a sample at or past the deadline. -/
theorem step_response_cases {s t : State} {m : List Byte} (h : step s = .next t)
    (hm : PortEvent.response m ∈ newEvents s t) :
    (∃ (st : Status) (data : List Byte), (st ≠ .acked ∧ st ≠ .timedOut) ∧ m = st.code :: data) ∨
    (s.hs = .wParse ∧ m = [0x04, 0x01] ∧ ∃ f, (parse s.acc).1 = .frame f ∧ f.type = typeAck) ∨
    (s.hs = .wCheck ∧ m = [0x10, 0x00] ∧ ∃ start timeout now, s.startTick = some start ∧
      s.waitTimeout = some timeout ∧ PortEvent.nowMs now ∈ newEvents s t ∧
      beforeDeadline now start timeout = false) := by
  by_cases hidle : s.env.resetNow = false ∧ s.hs = .idle
  · obtain ⟨hr, hi⟩ := hidle
    rcases step_idle_cases h hr hi with rfl | ⟨-, c, bs, htr⟩ | ⟨-, c, es, ⟨st, data, hst, hes⟩, htr⟩
    · simp [newEvents] at hm
    · simp [newEvents_of_append htr] at hm
    · refine .inl ⟨st, data, hst, ?_⟩
      rw [newEvents_of_append htr] at hm
      obtain rfl | ⟨bs, a, rfl⟩ := hes <;> simpa using hm
  · cases step_effect h with
    | idles hr hi | rejects _ _ _ hr hi | runs _ _ _ _ hr hi => exact absurd ⟨hr, hi⟩ hidle
    | acked f _ hs hp hf =>
      rw [newEvents_of_append rfl, List.mem_singleton, PortEvent.response.injEq] at hm
      exact .inr (.inl ⟨hs, hm, f, hp, hf⟩)
    | timesOut start timeout now e _ hs hst hto _ hb =>
      rw [newEvents_of_append rfl] at hm ⊢
      exact .inr (.inr ⟨hs, by simpa using hm, start, timeout, now, hst, hto, List.mem_cons_self, hb⟩)
    | wakes | sleepsOn =>
      rw [newEvents_of_append rfl] at hm
      split at hm <;> simp at hm
    | _ => simp [newEvents] at hm

theorem Status.code_defined (st : Status) :
    st.code.toNat ≤ 0x04 ∨ (0x10 ≤ st.code.toNat ∧ st.code.toNat ≤ 0x16) := by
  cases st <;> decide

/-- Settles O52: the codes of the two ends of a wait are in the table, and so is the code of every status. -/
theorem onlyDefinedStatusCodes : Obligations.OnlyDefinedStatusCodes := by
  unfold Obligations.OnlyDefinedStatusCodes
  intro s t m h hm
  rcases step_response_cases h hm with ⟨st, data, -, rfl⟩ | ⟨-, rfl, -⟩ | ⟨-, rfl, -⟩
  · exact ⟨_, data, rfl, st.code_defined⟩
  · exact ⟨_, _, rfl, Status.code_defined .acked⟩
  · exact ⟨_, _, rfl, Status.code_defined .timedOut⟩

/-- Settles O40: a response with status 04 is not a command's, and not a timeout's. -/
theorem ackedOnlyOnDecodedAck : Obligations.AckedOnlyOnDecodedAck := by
  unfold Obligations.AckedOnlyOnDecodedAck
  intro s t d h hm
  rcases step_response_cases h hm with ⟨st, data, ⟨hne, -⟩, hc⟩ | ⟨hs, hd, hf⟩ | ⟨-, hc, -⟩
  · exact absurd (Status.code_injective st .acked (List.cons.inj hc).1.symm) hne
  · exact ⟨hs, (List.cons.inj hd).2, hf⟩
  · exact absurd (List.cons.inj hc).1 (by decide)

/-- Settles O41: a response with status 10 is not a command's, and not an ACK's. -/
theorem timedOutOnlyAtDeadline : Obligations.TimedOutOnlyAtDeadline := by
  unfold Obligations.TimedOutOnlyAtDeadline
  intro s t d h hm
  rcases step_response_cases h hm with
    ⟨st, data, ⟨-, hne⟩, hc⟩ | ⟨-, hc, -⟩ | ⟨hs, hd, start, timeout, now, hst, hto, hnow, hb⟩
  · exact absurd (Status.code_injective st .timedOut (List.cons.inj hc).1.symm) hne
  · exact absurd (List.cons.inj hc).1 (by decide)
  · refine ⟨hs, (List.cons.inj hd).2, start, timeout, now, hst, hto, hnow, Nat.le_of_not_lt ?_⟩
    exact mt (beforeDeadline_iff now start timeout).2 (Bool.eq_false_iff.1 hb)

/-! ## What no step of a wait does (44_handshake.md R99, R113; 10_state.md R20, R25, R29) -/

/-- An event that a step of a wait can cause: no message taken, no frame sent. -/
def PortEvent.OfWait : PortEvent → Prop
  | .command _ => False
  | .txSend _ _ => False
  | _ => True

/-- A step of a wait takes no message and sends no frame, and leaves the host's queue alone. -/
theorem step_outside_idle {s t : State} (h : step s = .next t) (hs : s.hs ≠ .idle) :
    t.env.commands = s.env.commands ∧ ∀ e ∈ newEvents s t, e.OfWait := by
  cases step_effect h with
  | idles _ hi | rejects _ _ _ _ hi | runs _ _ _ _ _ hi => exact absurd hi hs
  | reset => exact ⟨rfl, by simp [newEvents, PortEvent.OfWait]⟩
  | samples _ _ _ _ hn | continues _ _ _ _ _ _ _ _ hn | timesOut _ _ _ _ _ _ _ _ hn =>
    have hc := congrArg (·.2.commands) hn
    exact ⟨hc.symm.trans (Env.drawTick_commands _), by simp [newEvents, PortEvent.OfWait]⟩
  | drains _ _ _ _ hx =>
    have hc := congrArg (·.2.commands) hx
    exact ⟨hc.symm.trans (Env.drawReceive_commands _ _), by simp [newEvents, PortEvent.OfWait]⟩
  | acked | discards | noFrame => exact ⟨rfl, by simp [newEvents, PortEvent.OfWait]⟩
  | wakes _ _ _ hn | sleepsOn _ _ _ hn =>
    have hc := congrArg (·.2.commands) hn
    refine ⟨hc.symm.trans (Env.drawSleepDone_commands _), ?_⟩
    cases s.sleeping <;> simp [newEvents, PortEvent.OfWait]

/-- Settles O6: a message taken is no event of a wait. -/
theorem noCommandTakenDuringWait : Obligations.NoCommandTakenDuringWait := by
  unfold Obligations.NoCommandTakenDuringWait
  intro s t hs h
  obtain ⟨hc, he⟩ := step_outside_idle h hs
  exact ⟨hc, fun m hm => he _ hm⟩

/-- What a step does to ACC outside IDLE: it puts bytes behind it, or leaves what `parse` leaves, or resets it. -/
theorem step_acc_of_wait {s t : State} (h : step s = .next t) (hs : s.hs ≠ .idle) :
    (∃ bs, t.acc = s.acc ++ bs) ∨ t.acc = (parse s.acc).2 ∨ (s.env.resetNow = true ∧ t.acc = []) := by
  cases step_effect h with
  | idles _ hi | rejects _ _ _ _ hi | runs _ _ _ _ _ hi => exact absurd hi hs
  | reset hr => exact .inr (.inr ⟨hr, rfl⟩)
  | drains bs => exact .inl ⟨bs, rfl⟩
  | acked | discards | noFrame => exact .inr (.inl rfl)
  | _ => exact .inl ⟨[], (List.append_nil _).symm⟩

/-- Settles O38: a frame sent is no event of a wait. -/
theorem noResendDuringWait : Obligations.NoResendDuringWait := by
  unfold Obligations.NoResendDuringWait
  intro s t hr hs h
  refine ⟨fun bs a hm => (step_outside_idle h hs).2 _ hm, ?_⟩
  rcases step_acc_of_wait h hs with hacc | hacc | ⟨hreset, -⟩
  · exact .inr (.inl hacc)
  · exact .inr (.inr hacc)
  · exact absurd hreset (by simp [hr])

/-- Settles O51: of the registers in question none is written by a step outside IDLE but reset. -/
theorem waitKeepsConfiguration : Obligations.WaitKeepsConfiguration := by
  unfold Obligations.WaitKeepsConfiguration
  intro s t hr hs h
  cases step_effect h with
  | reset hreset => simp [hr] at hreset
  | idles _ hi | rejects _ _ _ _ hi | runs _ _ _ _ _ hi => exact absurd hi hs
  | _ => exact ⟨rfl, rfl, rfl⟩

/-- Settles O39: a command that is over or begins a wait has requested no tick; of the wait's steps two request one. -/
theorem tickRequestedOnlyWhenSampled : Obligations.TickRequestedOnlyWhenSampled := by
  unfold Obligations.TickRequestedOnlyWhenSampled
  intro s t hr h
  by_cases hi : s.hs = .idle
  · rcases step_idle_cases h hr hi with rfl | ⟨-, c, bs, htr⟩ | ⟨-, c, es, ⟨st, data, -, hes⟩, htr⟩
    · simp [newEvents, hi]
    · simp [newEvents_of_append htr, hi]
    · obtain rfl | ⟨bs, a, rfl⟩ := hes <;> simp [newEvents_of_append htr, hi]
  · cases step_effect h with
    | reset hreset => simp [hr] at hreset
    | idles _ hs | rejects _ _ _ _ hs | runs _ _ _ _ _ hs => exact absurd hs hi
    | samples _ _ _ hs | continues _ _ _ _ _ hs | timesOut _ _ _ _ _ hs | drains _ _ _ hs | acked _ _ hs
    | discards _ _ hs | noFrame _ _ hs => simp [newEvents, hs]
    | wakes _ _ hs | sleepsOn _ _ hs => cases s.sleeping <;> simp [newEvents, hs]

/-! ## How a wait ends, and what happens to ACC (70_reset_and_hazards.md R150, 44_handshake.md R113) -/

/-- What a command does to ACC: it puts bytes behind it, or leaves what `parse` leaves. -/
theorem ExecEffect.acc {i : Instr} {s t : State} (he : ExecEffect i s t) :
    s.acc <+: t.acc ∨ t.acc = (parse s.acc).2 := by
  cases he with
  | parses => exact .inr rfl
  | appends data => exact .inl ⟨data, rfl⟩
  | _ => exact .inl (List.prefix_refl _)

/-- Settles O42: the steps of a wait that lead to IDLE are three, and ACC is written by an append, a parse or reset. -/
theorem waitEndsOnlyThreeWays : Obligations.WaitEndsOnlyThreeWays := by
  unfold Obligations.WaitEndsOnlyThreeWays
  refine ⟨fun s t hs h ht => ?_, fun s t h => ?_⟩
  · cases step_effect h with
    | reset hr => exact .inl hr
    | acked _ _ hp => exact .inr (.inl ⟨hp, newEvents_of_append rfl⟩)
    | timesOut _ _ now _ _ hc => exact .inr (.inr ⟨hc, now, newEvents_of_append rfl⟩)
    | noFrame got => cases got <;> cases ht
    | idles _ hi | rejects _ _ _ _ hi | runs _ _ _ _ _ hi => exact absurd hi hs
    | discards | sleepsOn => exact absurd ht hs
    | _ => cases ht
  · by_cases hs : s.hs = .idle
    · cases step_effect h with
      | reset hr => exact .inr (.inr ⟨hr, rfl⟩)
      | idles | rejects => exact .inl (List.prefix_refl _)
      | runs _ _ _ _ _ _ _ _ he => exact he.acc.imp_right .inl
      | _ => simp_all
    · rcases step_acc_of_wait h hs with ⟨bs, hacc⟩ | hacc | hacc
      · exact .inl ⟨bs, hacc.symm⟩
      · exact .inr (.inl hacc)
      · exact .inr (.inr hacc)

/-! ## Room to drain after a parse (70_reset_and_hazards.md R146) -/

/-- Settles O48: without a frame `parse` leaves at most 260 bytes, and ACC has room for 261. -/
theorem parseLeavesRoomToDrain : Obligations.ParseLeavesRoomToDrain := by
  unfold Obligations.ParseLeavesRoomToDrain
  intro s t hi hr hs h ht
  cases step_effect h with
  | noFrame got _ _ hp =>
    obtain ⟨-, -, -, -, hle⟩ := parseBounds s.acc
    have hrest : (parse s.acc).2.length ≤ 260 := hle fun f hf => by
      rw [hf] at hp
      rcases hp with hp | hp <;> cases hp
    have hcap := hi.params.capacity_low
    have hchunk := hi.params.chunk_low
    change 1 ≤ min s.params.rxChunk (s.params.accCapacity - (parse s.acc).2.length)
    omega
  | _ => simp_all

/-! ## The lower bound on a timeout (44_handshake.md R115 (a)) -/

/-- Elapsed time between two ticks never exceeds the real time between them. -/
theorem elapsed_le_real (t0 : Nat) {a b : Nat} (hab : a ≤ b) :
    (elapsed (BitVec.ofNat 32 (t0 + b)) (BitVec.ofNat 32 (t0 + a))).toNat ≤ b - a := by
  simp only [elapsed, BitVec.toNat_sub, BitVec.toNat_ofNat]
  omega

/-- Settles O47: the sample that ends the wait is at or past the deadline, and elapsed time is at most real time. -/
theorem timeoutLowerBound : Obligations.TimeoutLowerBound := by
  unfold Obligations.TimeoutLowerBound
  intro s t t0 rt0 rt1 timeout hr hs hst hto hle hnow h ht
  obtain ⟨start, timeout', hst', hto', hcase⟩ := step_check h hs hr
  obtain rfl : start = BitVec.ofNat 32 (t0 + rt0) := Option.some.inj (hst'.symm.trans hst)
  obtain rfl : timeout' = timeout := Option.some.inj (hto'.symm.trans hto)
  obtain ⟨-, hdrain⟩ | ⟨hb, -⟩ := hcase
  · rw [ht] at hdrain
    cases hdrain
  · rw [State.sample, hnow] at hb
    have hge := mt (beforeDeadline_iff _ _ _).2 (Bool.eq_false_iff.1 hb)
    have hreal := elapsed_le_real t0 hle
    omega

end Sys2Proof.Machine
end

section
/-! Proofs of the family 'other', several steps: waits that a state scripts to their end, and waits in an infinite run
under the assumptions about the time source (44_handshake.md R101). -/

namespace Sys2Proof.Machine

/-! ## Several steps, with no reset to come -/

theorem core_run_succ_of_step (M : Host.Core) {s t : M.State} (h : M.step s = .next t) (n : Nat) :
    M.run (n + 1) s = M.run n t := by
  rw [Host.Core.run, h]

theorem run_succ_of_step {s t : State} (h : step s = .next t) (n : Nat) : run (n + 1) s = run n t :=
  core_run_succ_of_step core h n

theorem NoReset.resetNow {s : State} (h : NoReset s) : s.env.resetNow = false := by
  unfold NoReset at h
  unfold Env.resetNow
  cases hr : s.env.resets with
  | nil => rfl
  | cons r rest => exact h r (by simp [hr])

/-- A schedule without reset has none in its rest. -/
theorem NoReset.of_tail {s t : State} (h : NoReset s) (ht : t.env.resets = s.env.resets.tail) : NoReset t :=
  fun r hr => h r (List.mem_of_mem_tail (ht ▸ hr))

/-- No elapsed time is below a timeout of 0. -/
theorem step_wCheck_of_zero {s : State} {start : Word} (hr : s.env.resetNow = false) (hs : s.hs = .wCheck)
    (hst : s.startTick = some start) (hto : s.waitTimeout = some 0) :
    step s = .next
      { s with
        env := s.passReset.env.drawTick.2, hs := .idle
        trace := s.trace ++ [.nowMs s.passReset.env.drawTick.1, .response [0x10, 0x00]] } :=
  (checkStepTestsDeadline s start 0 hr hs hst hto).trans (congrArg Host.Outcome.next (if_neg (Nat.not_lt_zero _)))

/-- Settles O37: SENT samples and W_CHECK times out. -/
theorem zeroTimeoutEndsAtOnce : Obligations.ZeroTimeoutEndsAtOnce := by
  unfold Obligations.ZeroTimeoutEndsAtOnce
  intro s hn hs hto
  have hsent := sentStepRecordsTick s hn.resetNow hs
  have hn' := hn.of_tail (t := { s.passReset with env := s.passReset.env.drawTick.2 }) (Env.drawTick_resets _)
  refine ⟨_, _, _, _, hsent, step_wCheck_of_zero ?_ rfl rfl hto, rfl, rfl, List.append_assoc _ _ _⟩
  exact hn'.resetNow

/-! ## Frames in front of an ACK (44_handshake.md R110, R111) -/

/-- Settles O43, by induction on the frames in front: each is parsed off and discarded, and then the ACK is in front. -/
theorem ackBehindOtherFramesEndsWait : Obligations.AckBehindOtherFramesEndsWait := by
  unfold Obligations.AckBehindOtherFramesEndsWait
  intro s fs p R hn hs hfs hp hacc
  induction fs generalizing s with
  | nil =>
    have hparse : parse s.acc = (.frame ⟨0x02, p⟩, R) := by
      rw [hacc]
      exact framerDeframerRoundTrip 0x02 p R hp
    obtain ⟨hack, -, -⟩ := parseStepActsOnType s hn.resetNow hs
    have hstep := hack ⟨0x02, p⟩ (by rw [hparse]) rfl
    exact ⟨_, run_succ_of_step hstep 0, rfl, congrArg Prod.snd hparse, newEvents_of_append rfl⟩
  | cons f fs ih =>
    obtain ⟨⟨htype, hlen⟩, hrest⟩ := List.forall_mem_cons.1 hfs
    have hparse : parse s.acc = (.frame f, wires fs ++ wire 0x02 p ++ R) := by
      rw [hacc, wires, List.flatMap_cons, List.append_assoc, List.append_assoc, ← List.append_assoc _ (wire 0x02 p) R]
      exact framerDeframerRoundTrip f.type f.payload _ hlen
    obtain ⟨-, hother, -⟩ := parseStepActsOnType s hn.resetNow hs
    have hstep := hother f (by rw [hparse]) htype
    obtain ⟨t, hrun, ht, hR, hev⟩ := ih { s.passReset with acc := (parse s.acc).2, hs := .wParse }
      (hn.of_tail rfl) rfl hrest (congrArg Prod.snd hparse)
    exact ⟨t, (run_succ_of_step hstep _).trans hrun, ht, hR, hev⟩

/-! ## A wait on a silent line (44_handshake.md R114, R115; log 21) -/

/-- W_CHECK with a scripted tick. -/
theorem step_wCheck_scripted {s : State} {start timeout tick : Word} {ticks : List Word} (hr : s.env.resetNow = false)
    (hs : s.hs = .wCheck) (hst : s.startTick = some start) (hto : s.waitTimeout = some timeout)
    (ht : s.env.ticks = tick :: ticks) :
    step s = .next
      (if beforeDeadline tick start timeout then
        { s with
          env := { s.passReset.env with ticks := ticks }, hs := .wDrain, trace := s.trace ++ [.nowMs tick] }
       else
        { s with
          env := { s.passReset.env with ticks := ticks }, hs := .idle
          trace := s.trace ++ [.nowMs tick, .response [0x10, 0x00]] }) := by
  have hdraw : s.passReset.env.drawTick = (tick, { s.passReset.env with ticks := ticks }) := by
    rw [Env.drawTick, State.passReset_env, ht]
  rw [checkStepTestsDeadline s start timeout hr hs hst hto, hdraw, ← elapsed_toNat]
  simp only [← beforeDeadline_iff]

/-- W_DRAIN where the script has no byte. -/
theorem step_wDrain_silent {s : State} {receives : List (List Byte)} (hr : s.env.resetNow = false)
    (hs : s.hs = .wDrain) (hx : s.env.receives = [] :: receives) :
    step s = .next
      { s with
        env := { s.passReset.env with receives := receives }, got := some false, hs := .wParse
        trace := s.trace ++ [.rxReceive (drainSize s) []] } := by
  have hdraw : s.passReset.env.drawReceive (drainSize s) = ([], { s.passReset.env with receives := receives }) := by
    rw [Env.drawReceive, State.passReset_env, hx]
  have hstep := (drainStepAppends s (drainSize s) hr hs rfl).1
  rw [hdraw, List.append_nil] at hstep
  exact hstep (Nat.zero_le _)

/-- W_PARSE without a frame, after a drain without a byte. -/
theorem step_wParse_silent {s : State} (hr : s.env.resetNow = false) (hs : s.hs = .wParse)
    (hf : ∀ f, (parse s.acc).1 ≠ .frame f) (hg : s.got = some false) :
    step s = .next { s.passReset with acc := (parse s.acc).2, hs := .wSleep } := by
  obtain ⟨-, -, hnone⟩ := parseStepActsOnType s hr hs
  exact hnone hf false hg

/-- W_SLEEP where the script completes the sleep at once. -/
theorem step_wSleep_completed {s : State} {sleeps : List Bool} (hr : s.env.resetNow = false) (hs : s.hs = .wSleep)
    (hsl : s.sleeping = false) (hx : s.env.sleeps = true :: sleeps) :
    step s = .next
      { s with
        env := { s.passReset.env with sleeps := sleeps }, hs := .wCheck
        trace := s.trace ++ [.sleepMs s.pollInterval] } := by
  have hdraw : s.passReset.env.drawSleepDone = (true, { s.passReset.env with sleeps := sleeps }) := by
    rw [Env.drawSleepDone, State.passReset_env, hx]
  rw [sleepStepWaits s hr hs, hdraw, hsl]
  rfl

/-- The state one pass of the loop later, on a silent line. -/
def State.afterSilentPass (s : State) (tick : Word) : State :=
  { s with
    acc := (parse s.acc).2
    got := some false
    env := { s.env with
      resets := s.env.resets.tail.tail.tail.tail, ticks := s.env.ticks.tail, receives := s.env.receives.tail
      sleeps := s.env.sleeps.tail }
    trace := s.trace ++ [.nowMs tick] ++ [.rxReceive (drainSize s) []] ++ [.sleepMs s.pollInterval] }

/-- What stays true of a wait on a silent line, at each W_CHECK. -/
structure State.SilentWait (s : State) (start timeout : Word) : Prop where
  no_reset : NoReset s
  checks : s.hs = .wCheck
  awake : s.sleeping = false
  start_held : s.startTick = some start
  timeout_held : s.waitTimeout = some timeout
  no_frame : ∀ f, (parse s.acc).1 ≠ .frame f
  silent : ∀ bs ∈ s.env.receives, bs = []
  sleeps_complete : ∀ done ∈ s.env.sleeps, done = true

theorem ticks_eq_cons {e : Env} {tick : Word} (h : e.ticks[0]? = some tick) : e.ticks = tick :: e.ticks.tail :=
  (List.cons_head?_tail (List.head?_eq_getElem?.trans h)).symm

theorem parse_parse_rest {A : List Byte} (h : ∀ f, (parse A).1 ≠ .frame f) : parse (parse A).2 = parse A :=
  (parse_parses A).parse_rest h

section
variable {s : State} {start timeout tick : Word}

theorem State.SilentWait.afterSilentPass (h : s.SilentWait start timeout) :
    (s.afterSilentPass tick).SilentWait start timeout where
  no_reset := fun r hr =>
    h.no_reset r (List.mem_of_mem_tail (List.mem_of_mem_tail (List.mem_of_mem_tail (List.mem_of_mem_tail hr))))
  checks := h.checks
  awake := h.awake
  start_held := h.start_held
  timeout_held := h.timeout_held
  no_frame := (parse_parse_rest h.no_frame).symm ▸ h.no_frame
  silent := fun bs hbs => h.silent bs (List.mem_of_mem_tail hbs)
  sleeps_complete := fun done hd => h.sleeps_complete done (List.mem_of_mem_tail hd)

/-- One pass of the loop on a silent line: W_CHECK, W_DRAIN, W_PARSE, W_SLEEP. -/
theorem State.SilentWait.run_pass (h : s.SilentWait start timeout) (ht : s.env.ticks[0]? = some tick)
    (hb : beforeDeadline tick start timeout = true) (hx : 0 < s.env.receives.length) (hsl : 0 < s.env.sleeps.length)
    (n : Nat) : run (n + 4) s = run n (s.afterSilentPass tick) := by
  obtain ⟨bs, receives, hreceives⟩ := List.exists_cons_of_length_pos hx
  obtain ⟨done, sleeps, hsleeps⟩ := List.exists_cons_of_length_pos hsl
  obtain rfl : bs = [] := h.silent bs (by simp [hreceives])
  obtain rfl : done = true := h.sleeps_complete done (by simp [hsleeps])
  have hcheck := step_wCheck_scripted h.no_reset.resetNow h.checks h.start_held h.timeout_held (ticks_eq_cons ht)
  rw [if_pos hb] at hcheck
  have n1 := h.no_reset.of_tail (t := s.passReset) rfl
  have n2 := n1.of_tail (t := s.passReset.passReset) rfl
  have n3 := n2.of_tail (t := s.passReset.passReset.passReset) rfl
  refine Eq.trans (run_succ_of_step hcheck _) ?_
  refine Eq.trans (run_succ_of_step (step_wDrain_silent (receives := receives) ?_ rfl ?_) _) ?_
  · exact n1.resetNow
  · exact hreceives
  refine Eq.trans (run_succ_of_step (step_wParse_silent ?_ rfl ?_ rfl) _) ?_
  · exact n2.resetNow
  · exact h.no_frame
  refine Eq.trans (run_succ_of_step (step_wSleep_completed (sleeps := sleeps) ?_ rfl ?_ ?_) _) ?_
  · exact n3.resetNow
  · exact h.awake
  · exact hsleeps
  simp [State.afterSilentPass, hreceives, hsleeps, h.checks, drainSize]

/-- The wait ends at the first tick at the deadline, by induction on the passes of the loop before it. -/
theorem State.SilentWait.times_out {k : Nat} (h : s.SilentWait start timeout) (hsleeps : k + 1 ≤ s.env.sleeps.length)
    (hx : k ≤ s.env.receives.length)
    (hbefore : ∀ j, j < k → ∃ t, s.env.ticks[j]? = some t ∧ beforeDeadline t start timeout = true)
    (hdeadline : ∃ t, s.env.ticks[k]? = some t ∧ beforeDeadline t start timeout = false) :
    ∃ t : State, run (4 * k + 1) s = .next t ∧ t.hs = .idle ∧
      t.trace.getLast? = some (.response [0x10, 0x00]) ∧
      t.acc = (if k = 0 then s.acc else (parse s.acc).2) := by
  induction k generalizing s with
  | zero =>
    obtain ⟨tick, htick, hb⟩ := hdeadline
    have hcheck := step_wCheck_scripted h.no_reset.resetNow h.checks h.start_held h.timeout_held (ticks_eq_cons htick)
    rw [if_neg (Bool.eq_false_iff.1 hb)] at hcheck
    exact ⟨_, run_succ_of_step hcheck 0, rfl, by simp, rfl⟩
  | succ k ih =>
    obtain ⟨tick, htick, hb⟩ := hbefore 0 (Nat.succ_pos k)
    obtain ⟨t, hrun, ht, hlast, hacc⟩ := ih (h.afterSilentPass (tick := tick))
      (by simp only [State.afterSilentPass, List.length_tail]; omega)
      (by simp only [State.afterSilentPass, List.length_tail]; omega)
      (fun j hj => by simpa [State.afterSilentPass] using hbefore (j + 1) (by omega))
      (by simpa [State.afterSilentPass] using hdeadline)
    refine ⟨t, (h.run_pass htick hb (by omega) (by omega) (4 * k + 1)).trans hrun, ht, hlast, ?_⟩
    have hrest : (parse (parse s.acc).2).2 = (parse s.acc).2 := by rw [parse_parse_rest h.no_frame]
    simpa [State.afterSilentPass, hrest] using hacc

end

/-- Settles O44: what O44 asks of a state is what a wait on a silent line keeps, and the scripts are long enough. -/
theorem silentWaitTimesOut : Obligations.SilentWaitTimesOut := by
  unfold Obligations.SilentWaitTimesOut
  intro s start timeout k hn hs hsl hst hto hf hscript hbefore hx hsilent
  have hwait : s.SilentWait start timeout := ⟨hn, hs, hsl, hst, hto, hf, hsilent, hscript.sleeps_complete⟩
  exact hwait.times_out hscript.enough_sleeps hx hbefore hscript.deadline

/-! ## Elapsed time in a wait (44_handshake.md R101) -/

section
variable {σ : Nat → State} {t0 : Nat} {rt : Nat → Nat} {first last : Nat} {timeout : Word}

/-- Before step `n` of the run the wait has sampled within its timeout of its first sample, with no sample since. -/
def SampledInTime (σ : Nat → State) (rt : Nat → Nat) (first : Nat) (timeout : Word) (n : Nat) : Prop :=
  ∃ p, first ≤ p ∧ p < n ∧ (σ p).Samples ∧ (∀ k, p < k → k < n → ¬ (σ k).Samples) ∧
    rt p - rt first ≤ timeout.toNat

/-- A check that comes after a sample within the timeout computes real time: by TA3 fewer than 2^32 milliseconds have
passed since the first sample. -/
theorem elapsed_of_sampledInTime (h1 : TA1 t0 rt σ) (h3 : TA3 rt σ) (hfirst : (σ first).Samples) {n : Nat}
    (hp : SampledInTime σ rt first timeout n) (hn : (σ n).Samples) (hc : (σ n).hs = .wCheck)
    (hto : (σ n).waitTimeout = some timeout) :
    (elapsed (σ n).sample (σ first).sample).toNat = rt n - rt first := by
  obtain ⟨p, hfp, hpn, hsp, hnone, hin⟩ := hp
  have hgap := h3 p n timeout hpn hsp hn hnone hc hto
  have hmono := h1.mono (hfp.trans hpn.le)
  have hT := timeout.isLt
  rw [h1.reads n hn, h1.reads first hfirst]
  exact elapsed_of_real t0 _ _ hmono (by omega)

/-- While a wait goes on it samples within its timeout: a check that does not is its last. -/
theorem run_sampledInTime (hσ : IsRun σ) (h1 : TA1 t0 rt σ) (h3 : TA3 rt σ) (hfirst : (σ first).Samples)
    (hs : (σ first).hs = .sent) (hto : (σ first).waitTimeout = some timeout)
    (hw : ∀ k, first ≤ k → k ≤ last → (σ k).hs ≠ .idle) :
    ∀ n, first < n → n ≤ last → SampledInTime σ rt first timeout n := by
  intro n hfn hn
  induction n, hfn using Nat.le_induction with
  | base => exact ⟨first, le_rfl, Nat.lt_succ_self _, hfirst, fun k _ _ => by omega, by omega⟩
  | succ n hfn ih =>
    have hlt : first < n := hfn
    have hp := ih (by omega)
    by_cases hsn : (σ n).Samples
    · have hc : (σ n).hs = .wCheck := hsn.2.resolve_left (run_not_sent hσ hw n hlt (by omega))
      have hton : (σ n).waitTimeout = some timeout := (run_waitTimeout hσ hw n hlt.le (by omega)).trans hto
      have hel := elapsed_of_sampledInTime h1 h3 hfirst hp hsn hc hton
      obtain ⟨start, timeout', hst, hto', ⟨hb, -⟩ | ⟨-, hidle⟩⟩ := step_check (hσ n) hc hsn.1
      · obtain rfl : start = (σ first).sample :=
          Option.some.inj (hst.symm.trans (run_startTick hσ hw hs hfirst.1 n hlt (by omega)))
        obtain rfl : timeout' = timeout := Option.some.inj (hto'.symm.trans hton)
        rw [beforeDeadline_iff, hel] at hb
        exact ⟨n, hlt.le, Nat.lt_succ_self n, hsn, fun k _ _ => by omega, hb.le⟩
      · exact absurd hidle (hw (n + 1) (by omega) hn)
    · obtain ⟨p, hfp, hpn, hsp, hnone, hin⟩ := hp
      refine ⟨p, hfp, by omega, hsp, fun k hpk hkn => ?_, hin⟩
      rcases Nat.lt_succ_iff_lt_or_eq.1 hkn with hk | rfl
      · exact hnone k hpk hk
      · exact hsn

end

/-- Settles O46: up to the check the wait has sampled in time, so the check computes real time. -/
theorem elapsedReadsRealTime : Obligations.ElapsedReadsRealTime := by
  unfold Obligations.ElapsedReadsRealTime
  intro σ t0 rt i j hσ h1 h3 hi hs hij hj hc hbetween
  have hw : ∀ k, i ≤ k → k ≤ j → (σ k).hs ≠ .idle := fun k hik hkj => by
    rcases hik.eq_or_lt with rfl | hik
    · simp [hs]
    · rcases hkj.eq_or_lt with rfl | hkj
      · simp [hc]
      · exact hbetween k hik hkj
  obtain ⟨start, timeout, hst, hto, -⟩ := step_check (hσ j) hc hj.1
  have htoi : (σ i).waitTimeout = some timeout := (run_waitTimeout hσ hw j hij.le le_rfl).symm.trans hto
  have hp := run_sampledInTime hσ h1 h3 hi hs htoi hw j hij le_rfl
  exact ⟨(σ i).sample, run_startTick hσ hw hs hi.1 j hij le_rfl, elapsed_of_sampledInTime h1 h3 hi hp hj hc hto⟩

/-! ## Termination (44_handshake.md R114) -/

/-- The command's step refuses, or fails, with the response it then makes last, or begins the wait. -/
theorem exec_sendFrameWaitAck_cases {d : Bool} {ty : Byte} {T : Word} {p : List Byte} {s t : State}
    (h : exec (.sendFrameWaitAck d ty T p) s = .next t) :
    t.hs = .sent ∨
    (t.hs = s.hs ∧ ∃ es r, t.trace = s.trace ++ (es ++ [.response r]) ∧
      (r = [0x11, 0x00] ∨ r = [0x12, 0x00])) := by
  rcases Nat.lt_or_ge 255 p.length with hp | hp
  · rw [exec_sendFrameWaitAck_of_gt d ty T hp] at h
    cases h
    exact .inr ⟨rfl, [], _, rfl, .inr rfl⟩
  · cases ha : s.env.drawSend.1 with
    | ok =>
      rw [exec_sendFrameWaitAck_of_ok d ty T hp ha] at h
      cases h
      exact .inl rfl
    | fail =>
      rw [exec_sendFrameWaitAck_of_fail d ty T hp ha] at h
      cases h
      exact .inr ⟨rfl, [.txSend (wire ty p) s.env.drawSend.1], _, List.append_assoc _ _ _, .inl rfl⟩

section
variable {σ : Nat → State} {t0 : Nat} {rt : Nat → Nat} {first : Nat}

/-- A wait that never ends checks its deadline again and again. -/
theorem run_checks_forever (hσ : IsRun σ) (h2 : TA2 rt σ) (hw : ∀ k, first ≤ k → (σ k).hs ≠ .idle)
    (hfirst : (σ first).Samples) (bound : Nat) :
    ∃ m, bound ≤ m ∧ first < m ∧ (σ m).Samples ∧ (σ m).hs = .wCheck := by
  induction bound with
  | zero =>
    obtain ⟨m, hlt, hsm, hc, -⟩ := run_next_check hσ hw h2.sleeps_complete first le_rfl hfirst
    exact ⟨m, Nat.zero_le m, hlt, hsm, hc⟩
  | succ bound ih =>
    obtain ⟨p, hbp, hfp, hsp, -⟩ := ih
    obtain ⟨m, hlt, hsm, hc, -⟩ := run_next_check hσ hw h2.sleeps_complete p hfp.le hsp
    exact ⟨m, by omega, by omega, hsm, hc⟩

/-- A wait that never ended would compute elapsed times without bound, and elapsed time has 32 bits. -/
theorem run_wait_ends (hσ : IsRun σ) (h1 : TA1 t0 rt σ) (h2 : TA2 rt σ) (h3 : TA3 rt σ)
    (hs : (σ first).hs = .sent) : ∃ n, first ≤ n ∧ (σ n).hs = .idle := by
  by_contra hnever
  have hw : ∀ k, first ≤ k → (σ k).hs ≠ .idle := fun k hk hi => hnever ⟨k, hk, hi⟩
  have hfirst : (σ first).Samples := ⟨no_reset_of_step (hσ first) (hw (first + 1) (by omega)), .inl hs⟩
  obtain ⟨late, hlate⟩ := h2.grows (rt first + 2 ^ 32)
  obtain ⟨m, hm, hfm, hsm, hc⟩ := run_checks_forever hσ h2 hw hfirst late
  obtain ⟨start, -, hel⟩ :=
    elapsedReadsRealTime σ t0 rt first m hσ h1 h3 hfirst hs hfm hsm hc fun k hk _ => hw k hk.le
  have hreal := h1.mono hm
  have hbits := (elapsed (σ m).sample start).isLt
  omega

end

/-- Settles O45: a command that begins a wait comes back to IDLE, and the first time it does so it ends in one of the
three ways a wait has; a command that begins none is back in IDLE at once. -/
theorem waitTerminates : Obligations.WaitTerminates := by
  unfold Obligations.WaitTerminates
  intro σ t0 rt m rest useDefault type timeout payload hσ h1 h2 h3 hr hs hc hd
  have hexec := (stepRunsDecodedCommand (σ 0) m rest _ hr hs hc hd).symm.trans (hσ 0)
  rcases exec_sendFrameWaitAck_cases hexec with hsent | ⟨hidle, es, r, htr, hresp⟩
  · have hends := run_wait_ends hσ h1 h2 h3 hsent
    obtain ⟨hpos, hfind⟩ := Nat.find_spec hends
    obtain ⟨n, hn⟩ : ∃ n, Nat.find hends = n + 1 := ⟨Nat.find hends - 1, by omega⟩
    rw [hn] at hfind
    have hw : ∀ k, 1 ≤ k → k ≤ n → (σ k).hs ≠ .idle := fun k h1k hkn hi =>
      Nat.find_min hends (by omega) ⟨h1k, hi⟩
    have hn1 : 1 ≤ n := by
      rcases Nat.eq_zero_or_pos n with rfl | hpos
      · rw [hsent] at hfind
        cases hfind
      · exact hpos
    refine ⟨n, hfind, hw, ?_⟩
    rcases waitEndsOnlyThreeWays.1 (σ n) (σ (n + 1)) (hw n hn1 le_rfl) (hσ n) hfind with
      hreset | ⟨-, hev⟩ | ⟨-, now, hev⟩
    · exact .inl ⟨hn1, hreset⟩
    · exact .inr ⟨_, by rw [hev]; rfl, .inl rfl⟩
    · exact .inr ⟨_, by rw [hev]; rfl, .inr (.inl rfl)⟩
  · refine ⟨0, hidle.trans hs, fun k _ _ => by omega, .inr ⟨r, ?_, .inr (.inr hresp)⟩⟩
    rw [newEvents_of_append (htr.trans (List.append_assoc _ _ _)), ← List.append_assoc, List.getLast?_concat]

end Sys2Proof.Machine
end
